-- ==== Sys2Proof/Word.lean ====
section
/-! DEFINITION. Sys2Proof/Word.lean: the widths that spec/ fixes for the SWF's words. Bit 0 is the least significant
bit of every value, and no value is signed (00_scope.md R7). Registers whose width is a build-time parameter
(RUN_W, CNT_W) are natural numbers, narrowed at every write (00_scope.md R8). -/

namespace Sys2Proof

/-- One Frame or result byte (20_memory.md R50, 10_state.md R32). -/
abbrev Byte := BitVec 8

/-- The 8-bit step-selector word SEL (30_encoding.md R70, R78). -/
abbrev Sel := BitVec 8

/-- The 3-bit input word `IN` with `rst` at bit 2, `start` at bit 1 and `line_in` at bit 0 (30_encoding.md R79). -/
abbrev InWord := BitVec 3

/-- The 40-bit Frame, as the shift register `sr` holds it (10_state.md R30, 20_memory.md R50). -/
abbrev Frame := BitVec 40

/-- The 44-bit RESULT word (30_encoding.md R75). -/
abbrev ResultWord := BitVec 44

end Sys2Proof
end

