-- ==== Sys2Proof/Config.lean ====
section
/-! DEFINITION. Sys2Proof/Config.lean: what one build of the SWF fixes (00_scope.md R5, R6) and the values nothing in
spec/ fixes (the host's input words past the listed stimulus; a line sampled while it changes). HR_DEPTH (41),
FRAME_BITS (40) and the checksum modulus (256) are fixed by R5 and stand as numerals where the rules have them. -/

namespace Sys2Proof

/-- TRIM: how the idle tail is removed (00_scope.md R5, 41_acquire.md R126). -/
inductive Trim where
  | wholeRun   -- WHOLE_RUN: the whole final run
  | tSamples   -- T_SAMPLES: exactly T samples
deriving DecidableEq, Repr

/-- SEQ_RULE: the structural check (00_scope.md R5, 43_validate.md R161). -/
inductive SeqRule where
  | either     -- EITHER: reject when the count is wrong or the first bit is not 1
  | both       -- BOTH: reject only when both fail
deriving DecidableEq, Repr

/-- The build-time parameters of 00_scope.md R5. "None of them can change while the block runs."
DESIGN CHOICE (log 1), safe: State carries them, since `exec` and `step` take no other argument. -/
structure Params where
  /-- T (IDLE_T), the idle-stoppage threshold -/
  t : Nat
  /-- RUN_W, the width of run lengths, trackers and HRBUF entries -/
  runW : Nat
  /-- CNT_W, the width of the high-run counter -/
  cntW : Nat
  trim : Trim
  seqRule : SeqRule
deriving DecidableEq, Repr

/-- The value of this spec (default) for every parameter (00_scope.md R5). -/
def Params.default : Params :=
  { t := 100, runW := 16, cntW := 8, trim := .wholeRun, seqRule := .either }

/-- ALL1 = 2^RUN_W - 1, the reset value of the min tracker (00_scope.md R6). -/
def Params.all1 (p : Params) : Nat := 2 ^ p.runW - 1

/-- NMAX = 2^CNT_W - 1, the saturation value of `n` (00_scope.md R6). -/
def Params.nmax (p : Params) : Nat := 2 ^ p.cntW - 1

/-- FREE VALUE (log 3): the input word the host presents at edge number `k`, once the listed stimulus is used up. The
host chooses it (60_exceptions.md R197); nothing constrains it. -/
opaque Config.freeInput : Nat → InWord

/-- FREE VALUE (log 6): the level sampled at edge number `k` when `line_in` changes at that edge: "the sample the block
takes is either level, and the model must admit both" (70_reset_and_hazards.md R216). -/
opaque Config.freeSample : Nat → Bool

end Sys2Proof
end

