-- ==== Sys2Proof/Syntax.lean ====
section
/-! DEFINITION. Sys2Proof/Syntax.lean: the operations of the block's sequencer, one constructor per row of
spec/opcode_table.json, in the table's order (00_scope.md R3, 30_encoding.md R71). No operation has an immediate
field or any other field of its own (30_encoding.md R77): the x bits of a pattern are don't-cares, no operands. -/

namespace Sys2Proof

/-- The SWF's operations (00_scope.md R3). -/
inductive Instr where
  | reset          -- RESET          40_control.md R100
  | wait           -- WAIT           40_control.md R101
  | start          -- START          40_control.md R102
  | sampleFirst    -- SAMPLE_FIRST   41_acquire.md R122
  | sampleChange   -- SAMPLE_CHANGE  41_acquire.md R123
  | sampleExtend   -- SAMPLE_EXTEND  41_acquire.md R124
  | sampleStop     -- SAMPLE_STOP    41_acquire.md R125
  | segment        -- SEGMENT        42_classify.md R140
  | classify       -- CLASSIFY       42_classify.md R141
  | validate       -- VALIDATE       43_validate.md R160
  | illegal        -- ILLEGAL        40_control.md R104
deriving DecidableEq, Repr

/-- Every operation, in the order of spec/opcode_table.json. -/
def Instr.all : List Instr :=
  [.reset, .wait, .start, .sampleFirst, .sampleChange, .sampleExtend, .sampleStop, .segment, .classify, .validate,
    .illegal]

end Sys2Proof
end

