-- ==== Sys2Proof/WellFormed.lean ====
section
/-! DEFINITION. Sys2Proof/WellFormed.lean: the checks of 00_scope.md R5 on a build's parameters. An operation has no
field (30_encoding.md R77), so every `Instr` is well formed. -/

namespace Sys2Proof

/-- An operation carries no field that could be out of range (30_encoding.md R77). -/
def Instr.wf : Instr → Bool
  | _ => true

/-- The legal values of 00_scope.md R5: `1 <= T <= 2^RUN_W - 2`, `RUN_W >= 2`, `CNT_W >= 6`. TRIM and SEQ_RULE are legal
by their types. -/
def Params.legal (p : Params) : Bool :=
  decide (1 ≤ p.t) && decide (p.t ≤ 2 ^ p.runW - 2) && decide (2 ≤ p.runW) && decide (6 ≤ p.cntW)

end Sys2Proof
end

