-- ==== Sys2Proof/Decode.lean ====
section
/-! DEFINITION. Sys2Proof/Decode.lean: the operation map of 30_encoding.md R71 and the decoder it gives, with the encoder
after it. A word matches a row when `(SEL & mask) == match`; the rows are disjoint and cover all 256 words (R72). -/

namespace Sys2Proof

/-- The match column of 30_encoding.md R71. -/
def Instr.matchBits : Instr → Sel
  | .reset => 0x80#8
  | .wait => 0x00#8
  | .start => 0x08#8
  | .sampleFirst => 0x14#8
  | .sampleChange => 0x10#8
  | .sampleExtend => 0x12#8
  | .sampleStop => 0x13#8
  | .segment => 0x20#8
  | .classify => 0x30#8
  | .validate => 0x50#8
  | .illegal => 0x60#8

/-- The mask column of 30_encoding.md R71: 1 where the pattern fixes the bit, 0 at an `x`. -/
def Instr.mask : Instr → Sel
  | .reset => 0x80#8
  | .wait => 0xB8#8
  | .start => 0xB8#8
  | .sampleFirst => 0xF4#8
  | .sampleChange => 0xF6#8
  | .sampleExtend => 0xF7#8
  | .sampleStop => 0xF7#8
  | .segment => 0xF0#8
  | .classify => 0xF0#8
  | .validate => 0xF0#8
  | .illegal => 0xE0#8

/-- "A word matches a row when `(SEL & mask) == match`" (30_encoding.md R71). -/
def Instr.matchesSel (i : Instr) (w : Sel) : Bool := (w &&& i.mask) == i.matchBits

/-- The operation a selector word selects (30_encoding.md R71): the row it matches; none where no row does (there is no
such word, R72). -/
def decode (w : Sel) : Option Instr := Instr.all.find? (·.matchesSel w)

/-- Why bits given from outside are no selector word. -/
inductive DecodeError where
  /-- the bits are not one 8-bit word: "The selector word is always 8 bits" (30_encoding.md R78) -/
  | notEightBits (nbits : Nat)
  /-- the number does not fit in the 8 bits of a selector word (30_encoding.md R78) -/
  | wordTooWide (w : Nat)
  /-- no row of the operation map matches; never answered, since the rows cover all words (30_encoding.md R72) -/
  | noRow (w : Sel)
deriving DecidableEq, Repr

/-- Decoding of `nbits` bits with the value `w`, total, rejecting by name. -/
def decodeBits (nbits w : Nat) : Except DecodeError Instr :=
  if nbits ≠ 8 then .error (.notEightBits nbits)
  else if 256 ≤ w then .error (.wordTooWide w)
  else
    match decode (BitVec.ofNat 8 w) with
    | some i => .ok i
    | none => .error (.noRow (BitVec.ofNat 8 w))

/-- The instruction read from an instruction whose bits are `w` as spec/opcode_table.json numbers them: one byte, whose
bit 0 is bit 0 of SEL. -/
def decodeTableWord (nbits w : Nat) : Option Instr :=
  match decodeBits nbits w with
  | .ok i => some i
  | .error _ => none

/-- A selector word of the operation, its don't-care bits taken from `fill` (the `x` bits of 30_encoding.md R71). -/
def encodeWith (fill : Sel) (i : Instr) : Sel := i.matchBits ||| (fill &&& ~~~i.mask)

/-- The one word of an operation, with every don't-care bit 0. -/
def encode (i : Instr) : List Sel := [encodeWith 0#8 i]

end Sys2Proof
end

