-- ==== Sys2Proof/Machine/State.lean ====
section
/-! DEFINITION. Sys2Proof/Machine/State.lean: the register set of 10_state.md R20, the model's own three fields (the
parameters, the stimulus and the edge number), the reset state, and the reasons a step can stop. -/

namespace Sys2Proof.Machine

/-- The 3-bit sequencer state `st` (10_state.md R21), the two illegal codes included (30_encoding.md R76). -/
inductive SeqState where
  | idle
  | acquire
  | segment
  | classify
  | done
  | validate
  | illegal6   -- 0b110
  | illegal7   -- 0b111
deriving DecidableEq, Repr

/-- The encodings of 10_state.md R21. -/
def SeqState.code : SeqState → BitVec 3
  | .idle => 0b000#3
  | .acquire => 0b001#3
  | .segment => 0b010#3
  | .classify => 0b011#3
  | .done => 0b100#3
  | .validate => 0b101#3
  | .illegal6 => 0b110#3
  | .illegal7 => 0b111#3

/-- ReadStatus (30_encoding.md R74). -/
inductive ReadStatus where
  | ok
  | checksumError
  | noDataError
  | sequenceError
deriving DecidableEq, Repr

/-- The 2-bit status codes of 30_encoding.md R74. -/
def ReadStatus.code : ReadStatus → BitVec 2
  | .ok => 0b00#2
  | .checksumError => 0b01#2
  | .noDataError => 0b10#2
  | .sequenceError => 0b11#2

/-- What the host puts on `line_in` at one edge: a stable level, or a level that changes at the edge
(70_reset_and_hazards.md R216; 93_implementation_defined.md U11). -/
inductive LineLevel where
  | low
  | high
  | changing
deriving DecidableEq, Repr

/-- What the host presents at one rising edge (10_state.md R36, 30_encoding.md R79). -/
structure Edge where
  rst : Bool
  start : Bool
  line : LineLevel
deriving DecidableEq, Repr

/-- The input pins as sampled at one edge: `in.rst`, `in.start`, `in.line` (00_scope.md R10). -/
structure Pins where
  rst : Bool
  start : Bool
  line : Bool
deriving DecidableEq, Repr

/-- HRBUF, the block's only indexed storage (10_state.md R33, 20_memory.md R55): (index, length) pairs with the indices
strictly rising. An index not listed holds no value (20_memory.md R53; log 2, safe). -/
abbrev Memory := List (Nat × Nat)

/-- The canonical form: indices strictly rising, all in 0..40 (20_memory.md R54). No value stands for an unlisted entry,
so no listed entry can equal it. -/
abbrev Memory.wf (m : Memory) : Prop :=
  m.Pairwise (fun a b => a.1 < b.1) ∧ ∀ c ∈ m, c.1 < 41

/-- The state of one SWF instance (10_state.md R20), and after it the model's own fields. -/
structure State where
  /-- sequencer state (R21) -/
  st : SeqState
  /-- level of the run being accumulated (R22) -/
  prev : Bool
  /-- samples in the run being accumulated, RUN_W bits (R23) -/
  runlen : Nat
  /-- `any_run`: a run has been closed in this read (R24) -/
  anyRun : Bool
  /-- HighRuns closed in this read, CNT_W bits, saturating (R25) -/
  n : Nat
  /-- minimum tracker, RUN_W bits (R26) -/
  mn : Nat
  /-- maximum tracker, RUN_W bits (R27) -/
  mx : Nat
  /-- index of the HighRun being classified (R28) -/
  idx : BitVec 6
  /-- `first_bit`: classification of HighRun 0 (R29) -/
  firstBit : Bool
  /-- the data shift register (R30) -/
  sr : Frame
  /-- ReadStatus of the last completed read (R31) -/
  status : ReadStatus
  /-- `r_hint`, humidity-integer byte (R32) -/
  rHint : Byte
  /-- `r_hdec`, humidity-decimal byte (R32) -/
  rHdec : Byte
  /-- `r_tint`, temperature-integer byte (R32) -/
  rTint : Byte
  /-- `r_tdec`, temperature-decimal byte (R32) -/
  rTdec : Byte
  /-- `r_chk`, checksum byte (R32) -/
  rChk : Byte
  /-- `HRBUF[0..40]`, RUN_W bits each (R33) -/
  hrbuf : Memory
  /-- MODEL's own (log 1): the build-time parameters of 00_scope.md R5; nothing writes them -/
  params : Params
  /-- MODEL's own (log 3): what the host still has to present, one entry an edge, the coming edge first (30_encoding.md R79) -/
  stim : List Edge
  /-- MODEL's own (log 3): the number of edges run, the index of the free values -/
  edge : Nat
deriving DecidableEq, Repr

/-- Why the machine stops. The block itself raises no exception (60_exceptions.md R180). -/
inductive Fault where
  /-- Raised by CLASSIFY, through `hrRead`: the HRBUF entry has not been written since power-up. "A model must fault on
  such a read rather than pick a value" (20_memory.md R53). Safe. -/
  | hrbufUnwritten (i : Nat)
  /-- Raised by CLASSIFY, through `hrRead`: an index above 40, for which no rule gives a behaviour ("An index outside 0..40
  is never produced", 00_scope.md R10; 20_memory.md R54). No run reaches it. Safe. -/
  | hrbufIndexOutOfRange (i : Nat)
deriving DecidableEq, Repr

/-- Why a step has no meaning. -/
inductive Refusal where
  /-- Answered by an arm of `exec` whose operation has no meaning yet; no arm does. Safe. -/
  | notModelled (mnemonic : String)
  /-- Answered by `step` when no row of the operation map matches the selector word; never, since the rows cover all
  256 words (30_encoding.md R72). Safe. -/
  | noSelectorRow (sel : Sel)
deriving DecidableEq, Repr

/-- The reset state of a build with parameters `p` (10_state.md R38), with every HRBUF entry holding no value (R39). -/
def State.resetOf (p : Params) : State :=
  { st := .idle, prev := false, runlen := 0, anyRun := false, n := 0, mn := p.all1, mx := 0, idx := 0#6,
    firstBit := false, sr := 0#40, status := .ok, rHint := 0#8, rHdec := 0#8, rTint := 0#8, rTdec := 0#8, rChk := 0#8,
    hrbuf := [], params := p, stim := [], edge := 0 }

/-- The machine right after reset (10_state.md R38, R39; 70_reset_and_hazards.md R211), with the default parameters of
00_scope.md R5 and no stimulus listed. -/
def State.reset : State := State.resetOf Params.default

end Sys2Proof.Machine
end

