-- ==== Sys2Proof/Machine/Operands.lean ====
section
/-! DEFINITION. Sys2Proof/Machine/Operands.lean: the operands the operations read (30_encoding.md R77): the pins sampled at
the edge, the selector word with its fields F, E and H (R70), and the byte slices of `sr` (20_memory.md R50). -/

namespace Sys2Proof.Machine

/-- What one 3-bit input word puts on the pins (30_encoding.md R79). -/
def Pins.ofWord (w : InWord) : Pins :=
  { rst := w.getLsbD 2, start := w.getLsbD 1, line := w.getLsbD 0 }

/-- The input word of sampled pins (30_encoding.md R79). -/
def Pins.word (p : Pins) : InWord :=
  BitVec.ofBool p.rst ++ BitVec.ofBool p.start ++ BitVec.ofBool p.line

/-- The stable level of a boolean. -/
def LineLevel.ofBool (b : Bool) : LineLevel := if b then .high else .low

/-- One edge of a stimulus program, from its input word (30_encoding.md R79). -/
def Edge.ofWord (w : InWord) : Edge :=
  { rst := w.getLsbD 2, start := w.getLsbD 1, line := LineLevel.ofBool (w.getLsbD 0) }

/-- The sample taken of a line level; `free` is taken where the level changes at the edge (70_reset_and_hazards.md R216). -/
def LineLevel.sample (free : Bool) : LineLevel → Bool
  | .low => false
  | .high => true
  | .changing => free

/-- The pins the host presents at edge number `k` when `stim` is what it still has listed: the first entry, or, past the
list, any word (60_exceptions.md R197: the host chooses the input word at every edge). -/
def pinsOf (stim : List Edge) (k : Nat) : Pins :=
  match stim with
  | [] => Pins.ofWord (Config.freeInput k)
  | e :: _ => { rst := e.rst, start := e.start, line := e.line.sample (Config.freeSample k) }

/-- The input pins sampled at the coming edge: `in.rst`, `in.start`, `in.line` (00_scope.md R10). -/
def State.pins (s : State) : Pins := pinsOf s.stim s.edge

/-- Field F: no sample yet in this read (30_encoding.md R70). -/
def State.selF (s : State) : Bool := decide (s.runlen = 0)

/-- Field E: the sample equals the previous sample (30_encoding.md R70). -/
def State.selE (s : State) : Bool := decide (s.pins.line = s.prev)

/-- Field H: one more equal sample makes the unchanged count reach T (30_encoding.md R70). -/
def State.selH (s : State) : Bool := decide (s.runlen = s.params.t)

/-- The selector word laid out from its fields R ST G F E H, bit 7 first (30_encoding.md R70). -/
def selOf (r : Bool) (st : SeqState) (g f e h : Bool) : Sel :=
  BitVec.ofBool r ++ st.code ++ BitVec.ofBool g ++ BitVec.ofBool f ++ BitVec.ofBool e ++ BitVec.ofBool h

/-- The step-selector word of the coming edge (30_encoding.md R70). -/
def State.selector (s : State) : Sel := selOf s.pins.rst s.st s.pins.start s.selF s.selE s.selH

/-- `b_hint = sr[39:32]` (30_encoding.md R77). -/
def bHint (sr : Frame) : Byte := sr.extractLsb' 32 8

/-- `b_hdec = sr[31:24]` (30_encoding.md R77). -/
def bHdec (sr : Frame) : Byte := sr.extractLsb' 24 8

/-- `b_tint = sr[23:16]` (30_encoding.md R77). -/
def bTint (sr : Frame) : Byte := sr.extractLsb' 16 8

/-- `b_tdec = sr[15:8]` (30_encoding.md R77). -/
def bTdec (sr : Frame) : Byte := sr.extractLsb' 8 8

/-- `b_chk = sr[7:0]` (30_encoding.md R77). -/
def bChk (sr : Frame) : Byte := sr.extractLsb' 0 8

/-- `((sr << 1) | b) mod 2^40`: the new bit enters at `sr[0]` (42_classify.md R141, 10_state.md R30). -/
def shiftIn (sr : Frame) (b : Bool) : Frame := (sr <<< 1) ||| BitVec.zeroExtend 40 (BitVec.ofBool b)

/-- The sequencer state of a 3-bit code (10_state.md R21). -/
def SeqState.ofCode (c : BitVec 3) : SeqState :=
  if c = 0b000#3 then .idle
  else if c = 0b001#3 then .acquire
  else if c = 0b010#3 then .segment
  else if c = 0b011#3 then .classify
  else if c = 0b100#3 then .done
  else if c = 0b101#3 then .validate
  else if c = 0b110#3 then .illegal6
  else .illegal7

end Sys2Proof.Machine
end

