-- ==== Sys2Proof/Machine/Flags.lean ====
section
/-! DEFINITION. Sys2Proof/Machine/Flags.lean: the block's derived flags and comparisons (10_state.md R35): `done`, `busy`, the
classifier bit (00_scope.md R11), the checksum (43_validate.md R164) and the structural check (43_validate.md R161).
There are no arithmetic condition codes (R35). -/

namespace Sys2Proof.Machine

/-- `done`: `st == DONE` (60_exceptions.md R190). -/
def State.done (s : State) : Bool := decide (s.st = .done)

/-- `busy`: `st` in {ACQUIRE, SEGMENT, CLASSIFY, VALIDATE} (60_exceptions.md R190). -/
def State.busy (s : State) : Bool :=
  match s.st with
  | .acquire | .segment | .classify | .validate => true
  | .idle | .done | .illegal6 | .illegal7 => false

/-- `|a - b|`, the absolute difference of two naturals (00_scope.md R8). -/
def absDiff (a b : Nat) : Nat := if a ≤ b then b - a else a - b

/-- `classify(len)` against the trackers: 1 iff `|len - mx| < |len - mn|`, ties to 0 (00_scope.md R11). -/
def classifyLen (mn mx len : Nat) : Bool := decide (absDiff len mx < absDiff len mn)

/-- `calc`: the sum of the first four Frame bytes mod 256 (43_validate.md R164). -/
def checksumCalc (sr : Frame) : Nat :=
  ((bHint sr).toNat + (bHdec sr).toNat + (bTint sr).toNat + (bTdec sr).toNat) % 256

/-- `calc == b_chk` (43_validate.md R164). -/
def checksumOk (sr : Frame) : Bool := decide (checksumCalc sr = (bChk sr).toNat)

/-- `reject` of 43_validate.md R160, by the structural check of R161. -/
def seqReject (rule : SeqRule) (cntOk fbOk : Bool) : Bool :=
  match rule with
  | .either => !(cntOk && fbOk)
  | .both => !cntOk && !fbOk

/-- `K = min(n, 41)`, the number of buffered high runs (00_scope.md R6). -/
def State.k (s : State) : Nat := min s.n 41

end Sys2Proof.Machine
end

