-- ==== Sys2Proof/Machine/Ops.lean ====
section
/-! DEFINITION. Sys2Proof/Machine/Ops.lean: the named operations over the registers and HRBUF that the meanings share:
register writes (00_scope.md R8), `HRRead` and `HRWrite` (R10), `close_run` (R11), `finish` (43_validate.md R163, the
block's outcome entry: 60_exceptions.md R186), the register clear that RESET and START share (40_control.md R100,
R102), and the passing of one edge (00_scope.md R9). -/

namespace Sys2Proof.Machine

/-- "A write of a value to a register of width W stores `value mod 2^W`" (00_scope.md R8). -/
def narrow (w v : Nat) : Nat := v % 2 ^ w

/-- `runlen <- v` (10_state.md R23). -/
def State.setRunlen (s : State) (v : Nat) : State := { s with runlen := narrow s.params.runW v }

/-- `n <- v` (10_state.md R25). -/
def State.setN (s : State) (v : Nat) : State := { s with n := narrow s.params.cntW v }

/-- `mn <- v` (10_state.md R26). -/
def State.setMn (s : State) (v : Nat) : State := { s with mn := narrow s.params.runW v }

/-- `mx <- v` (10_state.md R27). -/
def State.setMx (s : State) (v : Nat) : State := { s with mx := narrow s.params.runW v }

/-- The value entry `i` holds; none where it has not been written since power-up (20_memory.md R53). -/
def Memory.read : Memory → Nat → Option Nat
  | [], _ => none
  | c :: m, i => if c.1 = i then some c.2 else Memory.read m i

/-- `v` stored in entry `i`, keeping the canonical form. -/
def Memory.write : Memory → Nat → Nat → Memory
  | [], i, v => [(i, v)]
  | c :: m, i, v => if i < c.1 then (i, v) :: c :: m else if i = c.1 then (i, v) :: m else c :: Memory.write m i v

/-- `HRRead(i)` (00_scope.md R10): the entry's value, or the fault of 20_memory.md R53 where it has none; an index above 40
faults under a name of its own (R54). -/
def State.hrRead (s : State) (i : Nat) : Except Fault Nat :=
  if i < 41 then
    match s.hrbuf.read i with
    | some v => .ok v
    | none => .error (.hrbufUnwritten i)
  else .error (.hrbufIndexOutOfRange i)

/-- `HRWrite(i, v)` (00_scope.md R10): one whole entry of RUN_W bits (20_memory.md R52). -/
def State.hrWrite (s : State) (i v : Nat) : State := { s with hrbuf := s.hrbuf.write i (narrow s.params.runW v) }

/-- The HRBUF index `close_run(level, _)` stores to: `n` for a high run while `n < 41`; none otherwise (00_scope.md R11,
20_memory.md R54). -/
def State.closeRunIndex (s : State) (level : Bool) : Option Nat :=
  if level && decide (s.n < 41) then some s.n else none

/-- The store of `close_run`. -/
def State.closeRunStore (s : State) (level : Bool) (len : Nat) : State :=
  match s.closeRunIndex level with
  | some i => s.hrWrite i len
  | none => s

/-- `n <- (n == NMAX) ? NMAX : n + 1` (00_scope.md R11; 10_state.md R25). -/
def State.countRun (s : State) : State :=
  s.setN (if s.n = s.params.nmax then s.params.nmax else s.n + 1)

/-- `close_run(level, len)` (00_scope.md R11). -/
def State.closeRun (s : State) (level : Bool) (len : Nat) : State :=
  let s := { s with anyRun := true }
  if level then
    let s := (s.closeRunStore level len).countRun
    let s := s.setMn (min s.mn len)
    s.setMx (max s.mx len)
  else s

/-- `finish(code)` (43_validate.md R163): the status, the result bytes and `st = DONE`, all at one edge. The outcome entry
of 60_exceptions.md R186: nothing else is saved or changed. -/
def State.finish (s : State) (code : ReadStatus) : State :=
  match code with
  | .ok =>
    { s with status := code, rHint := bHint s.sr, rHdec := bHdec s.sr, rTint := bTint s.sr, rTdec := bTdec s.sr,
             rChk := bChk s.sr, st := .done }
  | .checksumError | .noDataError | .sequenceError =>
    { s with status := code, rHint := 0#8, rHdec := 0#8, rTint := 0#8, rTdec := 0#8, rChk := 0#8, st := .done }

/-- The writes RESET and START share (40_control.md R100, R102): every register but `st` and HRBUF to its reset value
(10_state.md R38). Leaving an outcome restores nothing (60_exceptions.md R187). -/
def State.clearRead (s : State) : State :=
  { s with prev := false, runlen := 0, anyRun := false, n := 0, mn := s.params.all1, mx := 0, idx := 0#6,
           firstBit := false, sr := 0#40, status := .ok, rHint := 0#8, rHdec := 0#8, rTint := 0#8, rTdec := 0#8,
           rChk := 0#8 }

/-- The edge has passed: the host's next input word is at hand (30_encoding.md R79). -/
def State.nextEdge (s : State) : State := { s with stim := s.stim.tail, edge := s.edge + 1 }

/-- An operation's outcome, with the edge passed where it is a next state (00_scope.md R9). -/
def passEdge : Host.Outcome State Fault Refusal → Host.Outcome State Fault Refusal
  | .next s => .next s.nextEdge
  | .fault f => .fault f
  | .refused r => .refused r

/-- The state with `e` presented at the coming edge, in the place of what was listed for it. -/
def State.withEdge (s : State) (e : Edge) : State := { s with stim := e :: s.stim.tail }

/-- A run length whose comparisons with 0 and T are the F and H of a selector word: 0 for F, T for H, else a value that is
neither (`now` where it already is). F and H together are no word of a legal build (30_encoding.md R73): F wins. -/
def runlenFor (f h : Bool) (t now : Nat) : Nat :=
  if f then 0 else if h then t else if now ≠ 0 ∧ now ≠ t then now else if t = 1 then 2 else 1

/-- Whether CLASSIFY is selected at a state whose operand `HRBUF[idx]` (30_encoding.md R77) has no value. -/
def State.lacksOperand (s : State) : Bool :=
  decide (s.st = .classify) && decide (s.idx.toNat < 41) && decide (s.hrbuf.read s.idx.toNat = none)

/-- The operand of CLASSIFY given where it lacks one: a shortest run in `HRBUF[idx]`. -/
def State.giveOperand (s : State) : State := if s.lacksOperand then s.hrWrite s.idx.toNat 1 else s

/-- The state whose coming edge forms the selector word `w` (log 10): `st`, `runlen` and the input word set from the
fields of 30_encoding.md R70 (E gives the sample relative to `prev`), and, in CLASSIFY, a shortest run stored in
`HRBUF[idx]` where it has none, since SEGMENT enters CLASSIFY only with it written (42_classify.md R140, R142). -/
def State.withSel (s : State) (w : Sel) : State :=
  { s with st := SeqState.ofCode (w.extractLsb' 4 3),
           runlen := runlenFor (w.getLsbD 2) (w.getLsbD 0) s.params.t s.runlen }.giveOperand.withEdge
    { rst := w.getLsbD 7, start := w.getLsbD 3,
      line := LineLevel.ofBool (if w.getLsbD 1 then s.prev else !s.prev) }

end Sys2Proof.Machine
end

