-- ==== Sys2Proof/Machine/Acquire.lean ====
section
/-! DEFINITION. Sys2Proof/Machine/Acquire.lean: sample acquisition and run-length encoding (41_acquire.md R120 to R125). -/

namespace Sys2Proof.Machine

/-- `prev <- in.line; runlen <- 1`: a run opens with the sample of this edge (41_acquire.md R122, R123). -/
def State.openRun (s : State) : State :=
  { s with prev := s.pins.line }.setRunlen 1

/-- SAMPLE_FIRST (41_acquire.md R122). -/
def execSampleFirst (s : State) : Host.Outcome State Fault Refusal :=
  .next s.openRun

/-- SAMPLE_CHANGE (41_acquire.md R123): the run that ended is closed, then a run opens. -/
def execSampleChange (s : State) : Host.Outcome State Fault Refusal :=
  .next (s.closeRun s.prev s.runlen).openRun

/-- SAMPLE_EXTEND (41_acquire.md R124). -/
def execSampleExtend (s : State) : Host.Outcome State Fault Refusal :=
  .next (s.setRunlen (s.runlen + 1))

/-- SAMPLE_STOP (41_acquire.md R125). -/
def execSampleStop (s : State) : Host.Outcome State Fault Refusal :=
  .next { s.setRunlen (s.runlen + 1) with st := .segment }

end Sys2Proof.Machine
end

