-- ==== Sys2Proof/Machine/Classify.lean ====
section
/-! DEFINITION. Sys2Proof/Machine/Classify.lean: end of acquisition and bit classification (42_classify.md R140, R141). -/

namespace Sys2Proof.Machine

/-- `runlen - T` as a RUN_W-bit value (42_classify.md R140; 00_scope.md R8: integer arithmetic, then mod 2^RUN_W). -/
def State.tailLen (s : State) : Nat :=
  (((s.runlen : Int) - (s.params.t : Int)) % ((2 ^ s.params.runW : Nat) : Int)).toNat

/-- The trimming of the final run: under T_SAMPLES its one remaining sample is closed as a run; under WHOLE_RUN the run is
dropped whole (42_classify.md R140). -/
def State.trimTail (s : State) : State :=
  match s.params.trim with
  | .tSamples => s.closeRun s.prev s.tailLen
  | .wholeRun => s

/-- The branch of SEGMENT after the trimming (42_classify.md R140). -/
def State.endAcquisition (s : State) : State :=
  if s.anyRun = false then s.finish .noDataError
  else if s.n = 0 then { s with firstBit := false, st := .validate }
  else { s with idx := 0#6, st := .classify }

/-- SEGMENT (42_classify.md R140). -/
def execSegment (s : State) : Host.Outcome State Fault Refusal :=
  .next s.trimTail.endAcquisition

/-- Where a classified bit goes: the handshake's to `first_bit`, a data bit into `sr` (42_classify.md R141). -/
def State.takeBit (s : State) (b : Bool) : State :=
  if s.idx = 0#6 then { s with firstBit := b } else { s with sr := shiftIn s.sr b }

/-- To VALIDATE after the last buffered run, else to the next index (42_classify.md R141). -/
def State.nextIdx (s : State) : State :=
  if s.idx.toNat + 1 = s.k then { s with st := .validate } else { s with idx := BitVec.ofNat 6 (s.idx.toNat + 1) }

/-- CLASSIFY (42_classify.md R141); an HRBUF entry with no value faults (20_memory.md R53). -/
def execClassify (s : State) : Host.Outcome State Fault Refusal :=
  match s.hrRead s.idx.toNat with
  | .ok len => .next (s.takeBit (classifyLen s.mn s.mx len)).nextIdx
  | .error f => .fault f

end Sys2Proof.Machine
end

