-- ==== Sys2Proof/Machine/Control.lean ====
section
/-! DEFINITION. Sys2Proof/Machine/Control.lean: the control operations RESET, WAIT, START and ILLEGAL (40_control.md R100 to
R104). -/

namespace Sys2Proof.Machine

/-- RESET (40_control.md R100): every register but HRBUF to its reset value, whatever the state. -/
def execReset (s : State) : Host.Outcome State Fault Refusal :=
  .next { s.clearRead with st := .idle }

/-- WAIT (40_control.md R101): no register changes. -/
def execWait (s : State) : Host.Outcome State Fault Refusal :=
  .next s

/-- START (40_control.md R102): the per-read registers cleared, HRBUF kept, no sample taken. -/
def execStart (s : State) : Host.Outcome State Fault Refusal :=
  .next { s.clearRead with st := .acquire }

/-- ILLEGAL (40_control.md R104): `st <- IDLE`, no other register changes. -/
def execIllegal (s : State) : Host.Outcome State Fault Refusal :=
  .next { s with st := .idle }

end Sys2Proof.Machine
end

