-- ==== Sys2Proof/Machine/Validate.lean ====
section
/-! DEFINITION. Sys2Proof/Machine/Validate.lean: frame validation (43_validate.md R160, R161). -/

namespace Sys2Proof.Machine

/-- The outcome code of VALIDATE: the structural check first, then the checksum (43_validate.md R160; 60_exceptions.md
R185). -/
def State.validateCode (s : State) : ReadStatus :=
  if seqReject s.params.seqRule (decide (s.n = 41)) s.firstBit then .sequenceError
  else if checksumOk s.sr then .ok
  else .checksumError

/-- VALIDATE (43_validate.md R160). -/
def execValidate (s : State) : Host.Outcome State Fault Refusal :=
  .next (s.finish s.validateCode)

end Sys2Proof.Machine
end

