-- ==== Sys2Proof/Machine/Dispatch.lean ====
section
/-! DEFINITION. Sys2Proof/Machine/Dispatch.lean: the operation map's arms, in the order of spec/opcode_table.json. -/

namespace Sys2Proof.Machine

-- The operation selected at an edge, run on the state and pins before it (00_scope.md R9).
def exec (i : Instr) (s : State) : Host.Outcome State Fault Refusal :=
  match i with
  | .reset => Sys2Proof.Machine.execReset s
  | .wait => Sys2Proof.Machine.execWait s
  | .start => Sys2Proof.Machine.execStart s
  | .sampleFirst => Sys2Proof.Machine.execSampleFirst s
  | .sampleChange => Sys2Proof.Machine.execSampleChange s
  | .sampleExtend => Sys2Proof.Machine.execSampleExtend s
  | .sampleStop => Sys2Proof.Machine.execSampleStop s
  | .segment => Sys2Proof.Machine.execSegment s
  | .classify => Sys2Proof.Machine.execClassify s
  | .validate => Sys2Proof.Machine.execValidate s
  | .illegal => Sys2Proof.Machine.execIllegal s

end Sys2Proof.Machine
end

