-- ==== Sys2Proof/Machine/Step.lean ====
section
/-! DEFINITION. Sys2Proof/Machine/Step.lean: one rising edge of `clk` (00_scope.md R9): the selector word is formed from the
state and the pins (30_encoding.md R70), it selects exactly one operation (R71, R72), the operation runs, and the edge
has passed. Nothing is fetched (20_memory.md R61). -/

namespace Sys2Proof.Machine

/-- One step: one rising edge of `clk` (00_scope.md R9). -/
def step (s : State) : Host.Outcome State Fault Refusal :=
  match decode s.selector with
  | some i => passEdge (exec i s)
  | none => .refused (.noSelectorRow s.selector)

/-- The state whose next step forms the selector word `w` of a table row (log 10); `nbits` is 8 for every row
(30_encoding.md R78). -/
def State.withFetchWord (s : State) (_nbits w : Nat) : State := s.withSel (BitVec.ofNat 8 w)

end Sys2Proof.Machine
end

