-- ==== Sys2Proof/Machine/Stimulus.lean ====
section
/-! DEFINITION. Sys2Proof/Machine/Stimulus.lean: stimulus programs (30_encoding.md R79) and the stimulus assembly language: base
statements and their words (R80), pseudo-statements and their expansions (R81), assembly and disassembly (R82), and the
text of a program (R80). -/

namespace Sys2Proof.Machine

/-- The base statements of 30_encoding.md R80. -/
inductive BaseStmt where
  | rst
  | start
  | sample (v : Bool)   -- S v
  | nop (c : Nat)       -- NOP c, c >= 1
deriving DecidableEq, Repr

/-- A base statement's input words (30_encoding.md R80). -/
def BaseStmt.words : BaseStmt → List InWord
  | .rst => [0b100#3]
  | .start => [0b010#3]
  | .sample v => [if v then 0b001#3 else 0b000#3]
  | .nop c => List.replicate c 0b000#3

/-- The statements of the language: the base statements and the pseudo-statements of 30_encoding.md R81. -/
inductive Stmt where
  | base (b : BaseStmt)
  | run (v : Bool) (c : Nat)                              -- RUN v, c
  | idle (v : Bool)                                       -- IDLE v
  | bit (b : Bool) (g s l : Nat)                          -- BIT b, g, s, l (b a bit: log 14)
  | frame (g s l h : Nat) (b0 b1 b2 b3 b4 : Byte)         -- FRAME g, s, l, h : B0, B1, B2, B3, B4
  | waitDone (c : Nat)                                    -- WAITDONE c
deriving DecidableEq, Repr

/-- `RUN v, c`: c copies of `S v` (30_encoding.md R81). -/
def runStmts (v : Bool) (c : Nat) : List BaseStmt := List.replicate c (.sample v)

/-- The samples a data bit is high: l for a 1, s for a 0 (`BIT` of 30_encoding.md R81). -/
def bitCount (s l : Nat) (b : Bool) : Nat := if b then l else s

/-- `BIT b, g, s, l`: `RUN 0, g` then `RUN 1, l` if b = 1, else `RUN 1, s` (30_encoding.md R81). -/
def bitStmts (b : Bool) (g s l : Nat) : List BaseStmt := runStmts false g ++ runStmts true (bitCount s l b)

/-- A byte's bits, most significant first: `B[7 - (k mod 8)]` for k = 0..7 (20_memory.md R50). -/
def byteBits (b : Byte) : List Bool := (List.range 8).map fun k => b.getLsbD (7 - k)

/-- The BitStream of five bytes: `d_k = B_(k div 8)[7 - (k mod 8)]` for k = 0..39 (30_encoding.md R81, 20_memory.md R50). -/
def frameBits (b0 b1 b2 b3 b4 : Byte) : List Bool := [b0, b1, b2, b3, b4].flatMap byteBits

/-- The ranges of the counts: `NOP c` and `RUN v, c` have c >= 1 (30_encoding.md R80, R81). The model's choice for BIT and
FRAME (log 14, DEDUCED), safe: R81 says that each of FRAME's g, s, l and h must be in 1..T, or the trace stops early, and the
model asks that each count the expansion uses is a `RUN`'s, at least 1, and nothing of one it does not use. A FRAME with a
count above T assembles as any other. -/
def Stmt.wf : Stmt → Bool
  | .base (.nop c) => decide (1 ≤ c)
  | .base .rst | .base .start | .base (.sample _) => true
  | .run _ c => decide (1 ≤ c)
  | .idle _ => true
  | .bit b g s l => decide (1 ≤ g) && decide (1 ≤ bitCount s l b)
  | .frame g s l h b0 b1 b2 b3 b4 =>
    decide (1 ≤ g) && decide (1 ≤ h) && (frameBits b0 b1 b2 b3 b4).all fun d => decide (1 ≤ bitCount s l d)
  | .waitDone c => decide (1 ≤ c)

/-- The expansion of a statement under threshold T (30_encoding.md R81). -/
def Stmt.expand (t : Nat) : Stmt → List BaseStmt
  | .base b => [b]
  | .run v c => runStmts v c
  | .idle v => runStmts v (t + 1)
  | .bit b g s l => bitStmts b g s l
  | .frame g s l h b0 b1 b2 b3 b4 =>
    runStmts false g ++ runStmts true h ++ (frameBits b0 b1 b2 b3 b4).flatMap (fun d => bitStmts d g s l) ++
      runStmts false g
  | .waitDone c => [.nop c]

/-- Assembly: the input words of the statements, in order, after pseudo-expansion (30_encoding.md R82). -/
def assemble (t : Nat) (p : List Stmt) : List InWord := p.flatMap fun s => (s.expand t).flatMap BaseStmt.words

/-- Disassembly of one input word; `rst` has priority over `start` (30_encoding.md R82). -/
def disassemble (w : InWord) : BaseStmt :=
  if w.getLsbD 2 then .rst else if w.getLsbD 1 then .start else .sample (w.getLsbD 0)

/-- A stimulus program given to the machine: one input word an edge, from the coming edge on (30_encoding.md R79; log 3). -/
def State.present (s : State) (p : List InWord) : State := { s with stim := p.map Edge.ofWord }

/-- A token of a line: a word of other characters, a comma or a colon. -/
inductive Token where
  | word (cs : List Char)
  | comma
  | colon
deriving DecidableEq, Repr

/-- The word read so far (its characters in reverse), as a token where there is one. -/
def flushWord (acc : List Char) : List Token := if acc = [] then [] else [.word acc.reverse]

/-- The tokens of one line; `;` starts a comment that runs to the end of the line (30_encoding.md R80). -/
def lexLine (acc : List Char) : List Char → List Token
  | [] => flushWord acc
  | c :: cs =>
    if c = ';' then flushWord acc
    else if c = ' ' ∨ c = '\t' ∨ c = '\r' then flushWord acc ++ lexLine [] cs
    else if c = ',' then flushWord acc ++ .comma :: lexLine [] cs
    else if c = ':' then flushWord acc ++ .colon :: lexLine [] cs
    else lexLine (c :: acc) cs

/-- The value of a digit, where it is one of the base. -/
def digitVal (base : Nat) (c : Char) : Option Nat :=
  let v := if '0' ≤ c ∧ c ≤ '9' then c.toNat - 48
    else if 'a' ≤ c ∧ c ≤ 'f' then c.toNat - 87
    else if 'A' ≤ c ∧ c ≤ 'F' then c.toNat - 55
    else 16
  if v < base then some v else none

/-- A numeral's digits, most significant first. -/
def digitsVal (base : Nat) (acc : Nat) : List Char → Option Nat
  | [] => some acc
  | c :: cs =>
    match digitVal base c with
    | some d => digitsVal base (acc * base + d) cs
    | none => none

/-- "Numbers are decimal unless written `0x..` or `0b..`" (30_encoding.md R80). -/
def numVal : List Char → Option Nat
  | [] => none
  | '0' :: 'x' :: c :: cs => digitsVal 16 0 (c :: cs)
  | '0' :: 'b' :: c :: cs => digitsVal 2 0 (c :: cs)
  | c :: cs => digitsVal 10 0 (c :: cs)

/-- The operands after a mnemonic: numbers separated by commas, with FRAME's colon (30_encoding.md R80, R81) kept as a
separator of its own: the numbers before it and those after it. -/
def operands : List Token → Option (List Nat × List Nat)
  | [.word w] => (numVal w).map fun v => ([v], [])
  | .word w :: .comma :: ts =>
    match numVal w, operands ts with
    | some v, some (a, b) => some (v :: a, b)
    | _, _ => none
  | .word w :: .colon :: ts =>
    match numVal w, operands ts with
    | some v, some (a, []) => some ([v], a)
    | _, _ => none
  | _ => none

/-- A level operand `v` of S, RUN or IDLE: 0 or 1 (30_encoding.md R80, `v in {0,1}`; RUN and IDLE expand to `S v`). -/
def levelVal : Nat → Option Bool
  | 0 => some false
  | 1 => some true
  | _ => none

/-- The data-bit operand `b` of BIT. DESIGN CHOICE (log 14), safe: 30_encoding.md R81 gives `b` no range ("`RUN 1, l` if
b = 1, else `RUN 1, s`"); the text admits 0 and 1, and a number that is no bit makes it no program. -/
def bitVal (v : Nat) : Option Bool := levelVal v

/-- A byte operand of FRAME. DESIGN CHOICE (log 14), safe: 30_encoding.md R81 gives `B0` to `B4` no range; a number that is
no byte makes the text no program. -/
def byteVal (v : Nat) : Option Byte := if v < 256 then some (BitVec.ofNat 8 v) else none

/-- The statement of a mnemonic and its operands, in the ranges the language gives them (30_encoding.md R80, R81). -/
def stmtOf (mnemonic : List Char) (ops : Option (List Nat × List Nat)) : Option Stmt :=
  let stmt : Option Stmt :=
    if mnemonic = ['S'] then
      match ops with
      | some ([v], []) => (levelVal v).map fun b => .base (.sample b)
      | _ => none
    else if mnemonic = ['N', 'O', 'P'] then
      match ops with
      | some ([c], []) => some (.base (.nop c))
      | _ => none
    else if mnemonic = ['R', 'U', 'N'] then
      match ops with
      | some ([v, c], []) => (levelVal v).map fun b => .run b c
      | _ => none
    else if mnemonic = ['I', 'D', 'L', 'E'] then
      match ops with
      | some ([v], []) => (levelVal v).map .idle
      | _ => none
    else if mnemonic = ['B', 'I', 'T'] then
      match ops with
      | some ([b, g, s, l], []) => (bitVal b).map fun d => .bit d g s l
      | _ => none
    else if mnemonic = ['F', 'R', 'A', 'M', 'E'] then
      match ops with
      | some ([g, s, l, h], [v0, v1, v2, v3, v4]) =>
        match byteVal v0, byteVal v1, byteVal v2, byteVal v3, byteVal v4 with
        | some b0, some b1, some b2, some b3, some b4 => some (.frame g s l h b0 b1 b2 b3 b4)
        | _, _, _, _, _ => none
      | _ => none
    else if mnemonic = ['W', 'A', 'I', 'T', 'D', 'O', 'N', 'E'] then
      match ops with
      | some ([c], []) => some (.waitDone c)
      | _ => none
    else none
  stmt.filter (·.wf)

/-- One line of a program: no statement (blank, or a comment alone), a statement, or an error (30_encoding.md R80). -/
def parseLine (line : List Char) : Option (List Stmt) :=
  match lexLine [] line with
  | [] => some []
  | [.word m] =>
    if m = ['R', 'S', 'T'] then some [.base .rst] else if m = ['S', 'T', 'A', 'R', 'T'] then some [.base .start] else none
  | .word m :: ts => (stmtOf m (operands ts)).map fun s => [s]
  | _ => none

/-- The lines of a text. -/
def splitLines (acc : List Char) : List Char → List (List Char)
  | [] => [acc.reverse]
  | c :: cs => if c = '\n' then acc.reverse :: splitLines [] cs else splitLines (c :: acc) cs

/-- A program's statements, one a line (30_encoding.md R80); none where some line is no statement. -/
def parseLines : List (List Char) → Option (List Stmt)
  | [] => some []
  | l :: ls =>
    match parseLine l, parseLines ls with
    | some a, some b => some (a ++ b)
    | _, _ => none

/-- The input words of a program's text under threshold T (30_encoding.md R80 to R82). -/
def assembleText (t : Nat) (text : List Char) : Option (List InWord) :=
  (parseLines (splitLines [] text)).map (assemble t)

end Sys2Proof.Machine
end

