-- ==== Sys2Proof/Machine/Outputs.lean ====
section
/-! DEFINITION. Sys2Proof/Machine/Outputs.lean: the output pins, the debug pins, the RESULT word and the Reading, all functions of
the state alone (60_exceptions.md R190, R192; 30_encoding.md R75; 40_control.md R107), and the host's conversion of a
Reading (43_validate.md R166). Reading an output has no side effect (20_memory.md R57). -/

namespace Sys2Proof.Machine

/-- The output pins of 60_exceptions.md R190. -/
structure OutPins where
  done : Bool
  busy : Bool
  status : BitVec 2
  humInt : Byte
  humDec : Byte
  tmpInt : Byte
  tmpDec : Byte
  chk : Byte
deriving DecidableEq, Repr

/-- The outputs after an edge, from the state after it (60_exceptions.md R190). -/
def State.outputs (s : State) : OutPins :=
  { done := s.done, busy := s.busy, status := s.status.code, humInt := s.rHint, humDec := s.rHdec, tmpInt := s.rTint,
    tmpDec := s.rTdec, chk := s.rChk }

/-- The debug pins of 60_exceptions.md R192. -/
structure DebugPins where
  n : Nat
  min : Nat
  max : Nat
  first : Bool
  sr : Frame
deriving DecidableEq, Repr

/-- `dbg_n`, `dbg_min`, `dbg_max`, `dbg_first`, `dbg_sr` (60_exceptions.md R192). -/
def State.debugPins (s : State) : DebugPins :=
  { n := s.n, min := s.mn, max := s.mx, first := s.firstBit, sr := s.sr }

/-- The 44-bit RESULT word (30_encoding.md R75). -/
def State.result (s : State) : ResultWord :=
  BitVec.ofBool s.done ++ BitVec.ofBool s.busy ++ s.status.code ++ s.rHint ++ s.rHdec ++ s.rTint ++ s.rTdec ++ s.rChk

/-- A Reading: the status and the five bytes (00_scope.md section 6; 43_validate.md R163). -/
structure Reading where
  status : ReadStatus
  hint : Byte
  hdec : Byte
  tint : Byte
  tdec : Byte
  chk : Byte
deriving DecidableEq, Repr

/-- The Reading the outputs show; one exists only if `st == DONE` (40_control.md R107, 70_reset_and_hazards.md R221). -/
def State.reading (s : State) : Option Reading :=
  if s.done then
    some { status := s.status, hint := s.rHint, hdec := s.rHdec, tint := s.rTint, tdec := s.rTdec, chk := s.rChk }
  else none

/-- Host side: `r_hint + r_hdec / 10` as an exact rational, meaningful only when the status is OK (43_validate.md R166). -/
def Reading.humidity (r : Reading) : Option Rat :=
  if r.status = .ok then some ((r.hint.toNat : Rat) + (r.hdec.toNat : Rat) / 10) else none

/-- Host side: `r_tint + r_tdec / 10` as an exact rational, meaningful only when the status is OK (43_validate.md R166). -/
def Reading.temperature (r : Reading) : Option Rat :=
  if r.status = .ok then some ((r.tint.toNat : Rat) + (r.tdec.toNat : Rat) / 10) else none

end Sys2Proof.Machine
end

