-- ==== Sys2Proof/Machine/Trace.lean ====
section
/-! DEFINITION. Sys2Proof/Machine/Trace.lean: the spec's two-pass definitions, which the block's operations
implement in one pass: the SampleTrace of a read and its trimming (41_acquire.md R121, R126), the RunTrace and the HighRuns (R127), the
classification over all HighRuns (42_classify.md R143, R144) and the outcome of a read (60_exceptions.md R185). No
operation calls them; claims compare the block with them. -/

namespace Sys2Proof.Machine

/-- A run of equal samples (00_scope.md section 6). -/
structure Run where
  level : Bool
  length : Nat
deriving DecidableEq, Repr

/-- The samples of a read up to and with the stopping sample, where the samples so far end in `prev` with unchanged count
`u` (41_acquire.md R121); none where the line does not settle within the samples given (40_control.md R108). -/
def acquireFrom (t : Nat) (prev : Bool) (u : Nat) : List Bool → Option (List Bool)
  | [] => none
  | x :: xs =>
    if x = prev then
      if u + 1 = t then some [x] else (acquireFrom t prev (u + 1) xs).map (x :: ·)
    else (acquireFrom t x 0 xs).map (x :: ·)

/-- The SampleTrace of a read, its stopping sample last: the count is 0 at the first sample, and acquisition stops at the
sample at which it reaches T (41_acquire.md R121). -/
def acquireTrace (t : Nat) : List Bool → Option (List Bool)
  | [] => none
  | x :: xs => (acquireFrom t x 0 xs).map (x :: ·)

/-- `xs` are exactly the samples of one read: its last sample, and no earlier one, is the stopping sample. -/
def wholeTrace (t : Nat) (xs : List Bool) : Bool := acquireTrace t xs == some xs

/-- The trimmed SampleTrace (41_acquire.md R126). -/
def trimTrace (p : Params) (xs : List Bool) : List Bool :=
  match p.trim with
  | .wholeRun => xs.take (xs.length - p.t - 1)
  | .tSamples => xs.take (xs.length - p.t)

/-- The RunTrace of a sample sequence: its maximal runs of equal samples, in order (41_acquire.md R127). -/
def runTrace : List Bool → List Run
  | [] => []
  | x :: xs =>
    match runTrace xs with
    | [] => [{ level := x, length := 1 }]
    | r :: rs => if r.level = x then { r with length := r.length + 1 } :: rs else { level := x, length := 1 } :: r :: rs

/-- The samples of a run sequence. -/
def runSamples (rs : List Run) : List Bool := rs.flatMap fun r => List.replicate r.length r.level

/-- The lengths of the HighRuns `H_0, H_1, ...` (41_acquire.md R127). -/
def highRuns (xs : List Bool) : List Nat := ((runTrace xs).filter (·.level)).map (·.length)

/-- The least HighRun length, ALL1 where there is none (41_acquire.md R129). -/
def minLen (p : Params) (hs : List Nat) : Nat := hs.min?.getD p.all1

/-- The greatest HighRun length, 0 where there is none (41_acquire.md R129). -/
def maxLen (hs : List Nat) : Nat := hs.max?.getD 0

/-- `b_i` for the first 41 HighRuns, classified against the extremes over all of them (42_classify.md R144). -/
def classifiedBits (p : Params) (hs : List Nat) : List Bool :=
  (hs.take 41).map (classifyLen (minLen p hs) (maxLen hs))

/-- Data bits shifted into an empty shift register, in order (10_state.md R30). -/
def shiftAll (bs : List Bool) : Frame := bs.foldl shiftIn 0#40

/-- The Reading of a failed read: every byte 0x00 (43_validate.md R163). -/
def failedReading (code : ReadStatus) : Reading :=
  { status := code, hint := 0#8, hdec := 0#8, tint := 0#8, tdec := 0#8, chk := 0#8 }

/-- The Reading of the classified bits of a read with `count` HighRuns (43_validate.md R160, R163): the structural check,
then the checksum. A missing first bit is not 1 (42_classify.md R140). -/
def validateBits (p : Params) (count : Nat) (bs : List Bool) : Reading :=
  let sr := shiftAll bs.tail
  if seqReject p.seqRule (decide (count = 41)) (bs.headD false) then failedReading .sequenceError
  else if checksumOk sr then
    { status := .ok, hint := bHint sr, hdec := bHdec sr, tint := bTint sr, tdec := bTdec sr, chk := bChk sr }
  else failedReading .checksumError

/-- The Reading of a read from its samples, in the two passes of the definitions above (60_exceptions.md R185). -/
def readTrace (p : Params) (xs : List Bool) : Reading :=
  let tr := trimTrace p xs
  if tr = [] then failedReading .noDataError
  else validateBits p (highRuns tr).length (classifiedBits p (highRuns tr))

end Sys2Proof.Machine
end

