-- ==== Sys2Proof/Safety.lean ====
section
/-! DEFINITION. Sys2Proof/Safety.lean: the terms the claims use: the invariant of 10_state.md R40, runs of several edges, what
the host presents at later edges, and the start of a read. -/

namespace Sys2Proof.Machine

/-- Every result byte is 0x00. -/
def State.bytesZero (s : State) : Prop :=
  s.rHint = 0#8 ∧ s.rHdec = 0#8 ∧ s.rTint = 0#8 ∧ s.rTdec = 0#8 ∧ s.rChk = 0#8

/-- The result bytes are the Frame's (43_validate.md R163). -/
def State.bytesFrame (s : State) : Prop :=
  s.rHint = bHint s.sr ∧ s.rHdec = bHdec s.sr ∧ s.rTint = bTint s.sr ∧ s.rTdec = bTdec s.sr ∧ s.rChk = bChk s.sr

/-- The registers hold values of their widths (10_state.md R20). -/
structure State.Widths (s : State) : Prop where
  runlen : s.runlen < 2 ^ s.params.runW
  n : s.n < 2 ^ s.params.cntW
  mn : s.mn < 2 ^ s.params.runW
  mx : s.mx < 2 ^ s.params.runW

/-- The invariant of every state reachable from reset: 10_state.md R40 with the widths of R20, the form of HRBUF
(20_memory.md R54), the bounds of 41_acquire.md R128 and the outputs of 60_exceptions.md R191 and 43_validate.md R163. -/
structure State.Inv (s : State) : Prop where
  /-- the parameters are a legal build (00_scope.md R5) -/
  legal : s.params.legal = true
  widths : s.Widths
  /-- HRBUF is in canonical form -/
  hrbuf : s.hrbuf.wf
  /-- R40 item 1 -/
  stLegal : s.st ≠ .illegal6 ∧ s.st ≠ .illegal7
  /-- R40 items 2 and 3 -/
  acquireRun : s.st = .acquire → s.runlen ≤ s.params.t
  /-- R40 item 2: before the first sample of a read no run is closed -/
  acquireFresh : s.st = .acquire → s.runlen = 0 → s.anyRun = false
  /-- 41_acquire.md R128: the run open at SAMPLE_STOP has T+1 samples -/
  segmentRun : s.st = .segment → s.runlen = s.params.t + 1
  /-- R40 item 4 -/
  trackers : 1 ≤ s.n → 1 ≤ s.mn ∧ s.mn ≤ s.mx ∧ s.mx ≤ s.params.t
  /-- R40 item 5 -/
  noHighRun : s.n = 0 → s.mn = s.params.all1 ∧ s.mx = 0
  /-- R40 item 6, with the trackers' bounds that 42_classify.md R143 uses -/
  buffered : ∀ i < s.k, ∃ len, s.hrbuf.read i = some len ∧ s.mn ≤ len ∧ len ≤ s.mx
  /-- R40 item 7 -/
  counted : 1 ≤ s.n → s.anyRun = true
  /-- R40 item 8 -/
  classifyIdx : s.st = .classify → s.idx.toNat < s.k
  /-- 10_state.md R28 -/
  idxBound : s.idx.toNat ≤ 40
  /-- 42_classify.md R140: the missing first bit of a read with no HighRun reads as 0 -/
  validateFirst : s.st = .validate → s.n = 0 → s.firstBit = false
  /-- 60_exceptions.md R191: outside DONE the status and the bytes read 0 -/
  notDone : s.st ≠ .done → s.status = .ok ∧ s.bytesZero
  /-- R40 item 9 -/
  failed : s.st = .done → s.status ≠ .ok → s.bytesZero
  /-- 43_validate.md R160: an OK outcome passed both checks and shows the Frame -/
  okFrame : s.st = .done → s.status = .ok →
    s.bytesFrame ∧ checksumOk s.sr = true ∧ seqReject s.params.seqRule (decide (s.n = 41)) s.firstBit = false
  /-- 60_exceptions.md R181: NO_DATA_ERROR only for a read that closed no run, and never under T_SAMPLES -/
  noData : s.st = .done → s.status = .noDataError → s.anyRun = false ∧ s.params.trim = .wholeRun

/-- Every register but HRBUF holds its reset value (10_state.md R38). -/
structure State.AtResetValues (s : State) : Prop where
  st : s.st.code = 0b000#3
  prev : s.prev = false
  runlen : s.runlen = 0
  anyRun : s.anyRun = false
  n : s.n = 0
  mn : s.mn = 2 ^ s.params.runW - 1
  mx : s.mx = 0
  idx : s.idx = 0#6
  firstBit : s.firstBit = false
  sr : s.sr = 0#40
  status : s.status.code = 0b00#2
  rHint : s.rHint = 0x00#8
  rHdec : s.rHdec = 0x00#8
  rTint : s.rTint = 0x00#8
  rTdec : s.rTdec = 0x00#8
  rChk : s.rChk = 0x00#8

/-- `k` edges (00_scope.md R9), through the host's interface. -/
def runEdges (k : Nat) (s : State) : Host.Outcome State Fault Refusal := Host.Core.run Sys2Proof.core k s

/-- The pins the host presents at the `k`-th edge from now (the coming edge is the 0-th). -/
def State.pinsAt (s : State) (k : Nat) : Pins := pinsOf (s.stim.drop k) (s.edge + k)

/-- The levels sampled on `line_in` at the next `m` edges. -/
def State.samples (s : State) (m : Nat) : List Bool := (List.range m).map fun k => (s.pinsAt k).line

/-- `rst` stays low for the next `m` edges. -/
def State.NoReset (s : State) (m : Nat) : Prop := ∀ k < m, (s.pinsAt k).rst = false

/-- `start` stays low for the next `m` edges. -/
def State.NoStart (s : State) (m : Nat) : Prop := ∀ k < m, (s.pinsAt k).start = false

/-- The per-read registers as START leaves them (40_control.md R102), in a legal build. -/
structure State.FreshRead (s : State) : Prop where
  legal : s.params.legal = true
  st : s.st = .acquire
  runlen : s.runlen = 0
  anyRun : s.anyRun = false
  n : s.n = 0
  mn : s.mn = s.params.all1
  mx : s.mx = 0
  idx : s.idx = 0#6
  firstBit : s.firstBit = false
  sr : s.sr = 0#40

end Sys2Proof.Machine
end

