-- ==== Sys2Proof/Certificates/Slice0/Obligations.lean ====
section
/-! DEFINITION. Sys2Proof/Certificates/Slice0/Obligations.lean: the statements for the provers, from the numbered rules of
spec/. `exec` runs the operation alone; `step` selects it from the state and the pins and passes the edge. -/

open Sys2Proof Sys2Proof.Machine

/-! ## Encodings and the step -/

/-- 30_encoding.md R72: the rows are disjoint and together cover all 256 words, so decode is total and deterministic. -/
def Obligations.SelectorRowsDisjointAndTotal : Prop :=
  ∀ w : Sel, ∃ i : Instr, decode w = some i ∧ ∀ j : Instr, w &&& j.mask = j.matchBits ↔ j = i

/-- 30_encoding.md R71: every word of an operation's pattern, whatever its don't-care bits, decodes to the operation, and so
does its encoding. -/
def Obligations.EncodedOperationDecodes : Prop :=
  ∀ (i : Instr) (fill : Sel), decode (encodeWith fill i) = some i ∧ (encode i).map decode = [some i]

/-- 30_encoding.md R71: one word of each row, written out bit by bit as `R ST G F E H`. -/
def Obligations.OperationWordsWrittenOut : Prop :=
  decodeTableWord 8 0b1_001_0_0_0_0 = some .reset ∧ decodeTableWord 8 0b0_100_0_0_1_0 = some .wait ∧
  decodeTableWord 8 0b0_000_1_1_0_0 = some .start ∧ decodeTableWord 8 0b0_001_0_1_0_0 = some .sampleFirst ∧
  decodeTableWord 8 0b0_001_0_0_0_1 = some .sampleChange ∧ decodeTableWord 8 0b0_001_1_0_1_0 = some .sampleExtend ∧
  decodeTableWord 8 0b0_001_0_0_1_1 = some .sampleStop ∧ decodeTableWord 8 0b0_010_0_0_1_0 = some .segment ∧
  decodeTableWord 8 0b0_011_1_0_1_0 = some .classify ∧ decodeTableWord 8 0b0_101_1_0_0_0 = some .validate ∧
  decodeTableWord 8 0b0_110_1_0_1_0 = some .illegal

/-- 30_encoding.md R70: the fields of the selector word, and that it selects exactly one operation. -/
def Obligations.SelectorWordFields : Prop :=
  ∀ s : State,
    s.selector.getLsbD 7 = s.pins.rst ∧ s.selector.extractLsb' 4 3 = s.st.code ∧ s.selector.getLsbD 3 = s.pins.start ∧
    s.selector.getLsbD 2 = decide (s.runlen = 0) ∧ s.selector.getLsbD 1 = decide (s.pins.line = s.prev) ∧
    s.selector.getLsbD 0 = decide (s.runlen = s.params.t) ∧
    ∃ i : Instr, decode s.selector = some i ∧ ∀ j : Instr, s.selector &&& j.mask = j.matchBits → j = i

/-- 30_encoding.md R71: the match and mask columns, the matching rule, and the condition column, for every state. -/
def Obligations.OperationMap : Prop :=
  Instr.all.map (fun i => (i.matchBits.toNat, i.mask.toNat)) =
    [(0x80, 0x80), (0x00, 0xB8), (0x08, 0xB8), (0x14, 0xF4), (0x10, 0xF6), (0x12, 0xF7), (0x13, 0xF7), (0x20, 0xF0),
      (0x30, 0xF0), (0x50, 0xF0), (0x60, 0xE0)] ∧
  (∀ (w : Sel) (i : Instr), decode w = some i ↔ w &&& i.mask = i.matchBits) ∧
  ∀ s : State,
    (decode s.selector = some .reset ↔ s.pins.rst = true) ∧
    (decode s.selector = some .wait ↔
      s.pins.rst = false ∧ (s.st = .idle ∨ s.st = .done) ∧ s.pins.start = false) ∧
    (decode s.selector = some .start ↔
      s.pins.rst = false ∧ (s.st = .idle ∨ s.st = .done) ∧ s.pins.start = true) ∧
    (decode s.selector = some .sampleFirst ↔ s.pins.rst = false ∧ s.st = .acquire ∧ s.runlen = 0) ∧
    (decode s.selector = some .sampleChange ↔
      s.pins.rst = false ∧ s.st = .acquire ∧ s.runlen ≠ 0 ∧ s.pins.line ≠ s.prev) ∧
    (decode s.selector = some .sampleExtend ↔
      s.pins.rst = false ∧ s.st = .acquire ∧ s.runlen ≠ 0 ∧ s.pins.line = s.prev ∧ s.runlen ≠ s.params.t) ∧
    (decode s.selector = some .sampleStop ↔
      s.pins.rst = false ∧ s.st = .acquire ∧ s.runlen ≠ 0 ∧ s.pins.line = s.prev ∧ s.runlen = s.params.t) ∧
    (decode s.selector = some .segment ↔ s.pins.rst = false ∧ s.st = .segment) ∧
    (decode s.selector = some .classify ↔ s.pins.rst = false ∧ s.st = .classify) ∧
    (decode s.selector = some .validate ↔ s.pins.rst = false ∧ s.st = .validate) ∧
    (decode s.selector = some .illegal ↔ s.pins.rst = false ∧ (s.st = .illegal6 ∨ s.st = .illegal7))

/-- 00_scope.md R9 with 30_encoding.md R70: a step is the selected operation run on the state before the edge, after which
the edge has passed (the model's stimulus list and edge number, log 3); a stop of the operation is a stop of the step. No
operation is refused. -/
def Obligations.StepRunsSelectedOperation : Prop :=
  ∀ (s : State) (i : Instr), decode s.selector = some i →
    step s = (match exec i s with
      | .next t => .next { t with stim := t.stim.tail, edge := t.edge + 1 }
      | .fault f => .fault f
      | .refused r => .refused r) ∧
    ∀ r, exec i s ≠ .refused r

/-- The model's choice (log 10): the state `withFetchWord` gives, in a legal build, selects at its coming edge the
operation of the word it was given, whatever the state before. -/
def Obligations.FetchWordSelectsItsOperation : Prop :=
  ∀ (s : State) (w : Nat), s.params.legal = true → w < 256 →
    decode (s.withFetchWord 8 w).selector = decodeTableWord 8 w

/-- 30_encoding.md R79: the input word's bits are the pins, from the list of words presented, one word an edge
(the list is the model's choice, log 3). -/
def Obligations.InputWordIsThePins : Prop :=
  ∀ (s : State) (p : List InWord) (k : Nat) (w : InWord), p[k]? = some w →
    ((s.present p).pinsAt k).word = w ∧ ((s.present p).pinsAt k).rst = w.getLsbD 2 ∧
    ((s.present p).pinsAt k).start = w.getLsbD 1 ∧ ((s.present p).pinsAt k).line = w.getLsbD 0

/-- 70_reset_and_hazards.md R216: a level that changes at the edge is sampled as either level; the step is the one of a low
or of a high line. -/
def Obligations.ChangingLineIsEitherLevel : Prop :=
  ∀ (s : State) (e : Edge),
    step (s.withEdge { e with line := .changing }) = step (s.withEdge { e with line := .low }) ∨
    step (s.withEdge { e with line := .changing }) = step (s.withEdge { e with line := .high })

/-! ## Reset -/

/-- 10_state.md R38: the reset value of every register, and the RESET operation, which applies them and leaves HRBUF as it
was; an entry never written has no value. -/
def Obligations.ResetValues : Prop :=
  State.reset.AtResetValues ∧ (∀ i : Nat, State.reset.hrbuf.read i = none) ∧
  (∀ p : Params, (State.resetOf p).AtResetValues ∧ ∀ i : Nat, (State.resetOf p).hrbuf.read i = none) ∧
  ∀ s : State, ∃ t, exec .reset s = .next t ∧ t.AtResetValues ∧ t.hrbuf = s.hrbuf

/-- The invariant of 10_state.md R40 holds at the reset state of every legal build, the default one included. -/
def Obligations.ResetStateHasInvariant : Prop :=
  State.reset.Inv ∧ ∀ p : Params, p.legal = true → (State.resetOf p).Inv

/-- 40_control.md R100: RESET's pattern, its writes (HRBUF kept), its priority over every state and input, and `done` and
`busy` after it. -/
def Obligations.ResetOperation : Prop :=
  (∀ w : Sel, w &&& 0x80#8 = 0x80#8 → decode w = some .reset) ∧
  ∀ s : State,
    exec .reset s =
      .next { s with
        st := .idle, prev := false, runlen := 0, anyRun := false, n := 0, mn := s.params.all1, mx := 0, idx := 0#6,
        firstBit := false, sr := 0#40, status := .ok, rHint := 0#8, rHdec := 0#8, rTint := 0#8, rTdec := 0#8,
        rChk := 0#8 } ∧
    (s.pins.rst = true → step s = passEdge (exec .reset s)) ∧
    ∀ t, exec .reset s = .next t → t.outputs.done = false ∧ t.outputs.busy = false

/-- 70_reset_and_hazards.md R210: one edge with `rst` high gives IDLE and the outputs and debug outputs of reset, whatever
the state and the other inputs. -/
def Obligations.OutputsAfterReset : Prop :=
  ∀ s : State, s.pins.rst = true → ∃ t, step s = .next t ∧ t.st = .idle ∧
    t.outputs = { done := false, busy := false, status := 0b00#2, humInt := 0x00#8, humDec := 0x00#8,
                  tmpInt := 0x00#8, tmpDec := 0x00#8, chk := 0x00#8 } ∧
    t.debugPins = { n := 0, min := s.params.all1, max := 0, first := false, sr := 0#40 }

/-! ## The other control operations -/

/-- 40_control.md R101: WAIT's pattern; no register changes, and the edge that selects it is IDLE's or DONE's with `start`
low. -/
def Obligations.WaitOperation : Prop :=
  (∀ w : Sel, w &&& 0xB8#8 = 0x00#8 → decode w = some .wait) ∧
  ∀ s : State, exec .wait s = .next s ∧
    (s.pins.rst = false → s.pins.start = false → s.st = .idle ∨ s.st = .done → step s = passEdge (exec .wait s))

/-- 40_control.md R102: START's pattern and writes; no sample is taken, HRBUF is kept; a `start` in IDLE or DONE begins the
read at that edge, whatever the line; `done` is then 0 and `busy` 1. -/
def Obligations.StartOperation : Prop :=
  (∀ w : Sel, w &&& 0xB8#8 = 0x08#8 → decode w = some .start) ∧
  ∀ s : State,
    exec .start s =
      .next { s with
        st := .acquire, prev := false, runlen := 0, anyRun := false, n := 0, mn := s.params.all1, mx := 0, idx := 0#6,
        firstBit := false, sr := 0#40, status := .ok, rHint := 0#8, rHdec := 0#8, rTint := 0#8, rTdec := 0#8,
        rChk := 0#8 } ∧
    (s.pins.rst = false → s.pins.start = true → s.st = .idle ∨ s.st = .done → step s = passEdge (exec .start s)) ∧
    ∀ t, exec .start s = .next t → t.outputs.done = false ∧ t.outputs.busy = true

/-- 40_control.md R104: ILLEGAL's pattern; `st <- IDLE` and no other register changes; `done` and `busy` read 0 before and
after. -/
def Obligations.IllegalOperation : Prop :=
  (∀ w : Sel, w &&& 0xE0#8 = 0x60#8 → decode w = some .illegal) ∧
  ∀ s : State, exec .illegal s = .next { s with st := .idle } ∧
    (s.pins.rst = false → s.st = .illegal6 ∨ s.st = .illegal7 →
      step s = passEdge (exec .illegal s) ∧ s.outputs.done = false ∧ s.outputs.busy = false) ∧
    ∀ t, exec .illegal s = .next t → t.outputs.done = false ∧ t.outputs.busy = false

/-! ## Acquisition -/

/-- 41_acquire.md R122: SAMPLE_FIRST opens the first run. -/
def Obligations.SampleFirstOperation : Prop :=
  (∀ w : Sel, w &&& 0xF4#8 = 0x14#8 → decode w = some .sampleFirst) ∧
  ∀ s : State, s.params.legal = true →
    exec .sampleFirst s = .next { s with prev := s.pins.line, runlen := 1 }

/-- 41_acquire.md R123: SAMPLE_CHANGE closes the run of level `prev` and length `runlen` (00_scope.md R11) and opens one. -/
def Obligations.SampleChangeOperation : Prop :=
  (∀ w : Sel, w &&& 0xF6#8 = 0x10#8 → decode w = some .sampleChange) ∧
  ∀ s : State, s.params.legal = true → s.Widths →
    (s.prev = false →
      exec .sampleChange s = .next { s with anyRun := true, prev := s.pins.line, runlen := 1 }) ∧
    (s.prev = true →
      exec .sampleChange s =
        .next { s with
          anyRun := true
          hrbuf := if s.n < 41 then s.hrbuf.write s.n s.runlen else s.hrbuf
          n := if s.n = s.params.nmax then s.params.nmax else s.n + 1
          mn := min s.mn s.runlen
          mx := max s.mx s.runlen
          prev := s.pins.line
          runlen := 1 })

/-- 41_acquire.md R124: SAMPLE_EXTEND counts the sample; with T = 1 it never runs. -/
def Obligations.SampleExtendOperation : Prop :=
  (∀ w : Sel, w &&& 0xF7#8 = 0x12#8 → decode w = some .sampleExtend) ∧
  (∀ s : State, s.params.legal = true → s.runlen < s.params.t →
    exec .sampleExtend s = .next { s with runlen := s.runlen + 1 }) ∧
  ∀ s : State, s.Inv → s.params.t = 1 → decode s.selector ≠ some .sampleExtend

/-- 41_acquire.md R125: SAMPLE_STOP counts the stopping sample and leaves ACQUIRE; the final run is not closed. -/
def Obligations.SampleStopOperation : Prop :=
  (∀ w : Sel, w &&& 0xF7#8 = 0x13#8 → decode w = some .sampleStop) ∧
  ∀ s : State, s.params.legal = true → s.runlen = s.params.t →
    exec .sampleStop s = .next { s with runlen := s.params.t + 1, st := .segment }

/-- The four sample operations: what each leaves unchanged (41_acquire.md R122 to R125). -/
def Obligations.SampleOperationsFrame : Prop :=
  ∀ (i : Instr) (s t : State),
    i = .sampleFirst ∨ i = .sampleChange ∨ i = .sampleExtend ∨ i = .sampleStop → exec i s = .next t →
    t.idx = s.idx ∧ t.firstBit = s.firstBit ∧ t.sr = s.sr ∧ t.status = s.status ∧ t.rHint = s.rHint ∧
    t.rHdec = s.rHdec ∧ t.rTint = s.rTint ∧ t.rTdec = s.rTdec ∧ t.rChk = s.rChk ∧ t.params = s.params ∧
    t.stim = s.stim ∧ t.edge = s.edge ∧ (i ≠ .sampleStop → t.st = s.st) ∧
    (i = .sampleExtend ∨ i = .sampleStop → t.prev = s.prev) ∧
    (i ≠ .sampleChange → t.anyRun = s.anyRun ∧ t.n = s.n ∧ t.mn = s.mn ∧ t.mx = s.mx) ∧
    (i = .sampleChange → s.prev = false → t.n = s.n ∧ t.mn = s.mn ∧ t.mx = s.mx)

/-- 00_scope.md R11: the two helpers, for every state whose registers fit their widths and every length that fits. -/
def Obligations.CloseRunAndClassify : Prop :=
  (∀ (s : State) (len : Nat), s.closeRun false len = { s with anyRun := true }) ∧
  (∀ (s : State) (len : Nat), s.params.legal = true → s.Widths → len < 2 ^ s.params.runW →
    s.closeRun true len =
      { s with
        anyRun := true
        hrbuf := if s.n < 41 then s.hrbuf.write s.n len else s.hrbuf
        n := if s.n = s.params.nmax then s.params.nmax else s.n + 1
        mn := min s.mn len
        mx := max s.mx len }) ∧
  ∀ mn mx len : Nat, classifyLen mn mx len =
    if ((len : Int) - (mx : Int)).natAbs < ((len : Int) - (mn : Int)).natAbs then true else false

/-! ## End of acquisition and classification -/

/-- 42_classify.md R140: SEGMENT, with the run it closes under T_SAMPLES (00_scope.md R11) and its three branches. -/
def Obligations.SegmentOperation : Prop :=
  (∀ w : Sel, w &&& 0xF0#8 = 0x20#8 → decode w = some .segment) ∧
  ∀ s u : State, s.params.legal = true → s.runlen = s.params.t + 1 →
    (s.params.trim = .wholeRun → u = s) → (s.params.trim = .tSamples → u = s.closeRun s.prev 1) →
    (u.anyRun = false →
      exec .segment s =
        .next { u with status := .noDataError, rHint := 0x00#8, rHdec := 0x00#8, rTint := 0x00#8, rTdec := 0x00#8,
                       rChk := 0x00#8, st := .done }) ∧
    (u.anyRun = true → u.n = 0 → exec .segment s = .next { u with firstBit := false, st := .validate }) ∧
    (u.anyRun = true → u.n ≠ 0 → exec .segment s = .next { u with idx := 0#6, st := .classify })

/-- 42_classify.md R141: CLASSIFY on an entry that holds a length: the bit, where it goes, and the next index or VALIDATE. -/
def Obligations.ClassifyOperation : Prop :=
  (∀ w : Sel, w &&& 0xF0#8 = 0x30#8 → decode w = some .classify) ∧
  ∀ (s u : State) (len : Nat) (b : Bool), s.idx.toNat < 41 → s.hrbuf.read s.idx.toNat = some len →
    (b = true ↔ absDiff len s.mx < absDiff len s.mn) →
    (s.idx.toNat = 0 → u = { s with firstBit := b }) →
    (s.idx.toNat ≠ 0 → u = { s with sr := BitVec.ofNat 40 (2 * s.sr.toNat + b.toNat) }) →
    (s.idx.toNat + 1 = min s.n 41 → exec .classify s = .next { u with st := .validate }) ∧
    (s.idx.toNat + 1 ≠ min s.n 41 →
      exec .classify s = .next { u with idx := BitVec.ofNat 6 (s.idx.toNat + 1) })

/-- 20_memory.md R53 and R54: CLASSIFY stops on an entry never written and, by the model's choice (log 2), on an index
above 40, and on nothing else. -/
def Obligations.ClassifyStopsOnlyWithoutEntry : Prop :=
  ∀ s : State,
    (s.idx.toNat < 41 → s.hrbuf.read s.idx.toNat = none →
      exec .classify s = .fault (.hrbufUnwritten s.idx.toNat)) ∧
    (41 ≤ s.idx.toNat → exec .classify s = .fault (.hrbufIndexOutOfRange s.idx.toNat)) ∧
    ∀ i : Instr, (∀ t, exec i s ≠ .next t) → i = .classify ∧ (41 ≤ s.idx.toNat ∨ s.hrbuf.read s.idx.toNat = none)

/-- 42_classify.md R143: between the trackers, the bit is 1 exactly when `2*len > mn + mx`; the shortest run gives 0, the
longest gives 1 exactly when the two differ. -/
def Obligations.ClassifyThreshold : Prop :=
  ∀ mn mx len : Nat, mn ≤ len → len ≤ mx →
    absDiff len mx = mx - len ∧ absDiff len mn = len - mn ∧ (classifyLen mn mx len = true ↔ 2 * len > mn + mx) ∧
    classifyLen mn mx mn = false ∧ (classifyLen mn mx mx = true ↔ mx > mn)

/-- 42_classify.md R145: scaling every HighRun length of a read by the same positive factor `a / b` leaves every bit
unchanged. -/
def Obligations.ClassificationIsSelfCalibrating : Prop :=
  ∀ (p : Params) (hs scaled : List Nat) (a b : Nat), 0 < a → 0 < b →
    scaled.map (b * ·) = hs.map (a * ·) → classifiedBits p scaled = classifiedBits p hs

/-! ## Validation -/

/-- 43_validate.md R160: VALIDATE's checks in order, on the slices of `sr`. -/
def Obligations.ValidateOperation : Prop :=
  (∀ w : Sel, w &&& 0xF0#8 = 0x50#8 → decode w = some .validate) ∧
  ∀ (s : State) (reject : Bool) (sum : Nat),
    (s.params.seqRule = .either → (reject = true ↔ ¬ (s.n = 41 ∧ s.firstBit = true))) →
    (s.params.seqRule = .both → (reject = true ↔ s.n ≠ 41 ∧ s.firstBit ≠ true)) →
    sum = ((s.sr.extractLsb' 32 8).toNat + (s.sr.extractLsb' 24 8).toNat + (s.sr.extractLsb' 16 8).toNat +
      (s.sr.extractLsb' 8 8).toNat) % 256 →
    (reject = true → exec .validate s = .next (s.finish .sequenceError)) ∧
    (reject = false → sum ≠ (s.sr.extractLsb' 0 8).toNat → exec .validate s = .next (s.finish .checksumError)) ∧
    (reject = false → sum = (s.sr.extractLsb' 0 8).toNat → exec .validate s = .next (s.finish .ok))

/-- 43_validate.md R163: `finish` writes the status, the result bytes and `st`, and no other register. -/
def Obligations.FinishWritesTheOutcome : Prop :=
  ∀ (s : State) (code : ReadStatus),
    (code = .ok → s.finish code =
      { s with status := code, rHint := s.sr.extractLsb' 32 8, rHdec := s.sr.extractLsb' 24 8,
               rTint := s.sr.extractLsb' 16 8, rTdec := s.sr.extractLsb' 8 8, rChk := s.sr.extractLsb' 0 8,
               st := .done }) ∧
    (code ≠ .ok → s.finish code =
      { s with status := code, rHint := 0x00#8, rHdec := 0x00#8, rTint := 0x00#8, rTdec := 0x00#8, rChk := 0x00#8,
               st := .done })

/-- 43_validate.md R167: the outcome of VALIDATE by (n == 41, first_bit, checksum matches), under both rules; a read that
does not reach VALIDATE ends with NO_DATA_ERROR from SEGMENT. -/
def Obligations.OutcomeTable : Prop :=
  (∀ s : State, ∃ t, exec .validate s = .next t ∧ t.st = .done ∧
    (s.params.seqRule = .either → t.status =
      match decide (s.n = 41), s.firstBit, checksumOk s.sr with
      | true, true, true => .ok
      | true, true, false => .checksumError
      | true, false, _ => .sequenceError
      | false, _, _ => .sequenceError) ∧
    (s.params.seqRule = .both → t.status =
      match decide (s.n = 41), s.firstBit, checksumOk s.sr with
      | true, _, true => .ok
      | true, _, false => .checksumError
      | false, true, true => .ok
      | false, true, false => .checksumError
      | false, false, _ => .sequenceError)) ∧
  ∀ s t : State, step s = .next t → s.st ≠ .done → t.st = .done →
    s.st = .validate ∨ (s.st = .segment ∧ t.status = .noDataError)

/-- 43_validate.md R165: the checksum round-trip, and that flipping any one bit of the frame, in the checksum byte or in a
data byte, gives CHECKSUM_ERROR. -/
def Obligations.ChecksumRoundTripAndMutation : Prop :=
  ∀ (s : State) (hi hd ti td c : Byte), s.n = 41 → s.firstBit = true →
    c.toNat = (hi.toNat + hd.toNat + ti.toNat + td.toNat) % 256 →
    (∃ t, exec .validate { s with sr := hi ++ hd ++ ti ++ td ++ c } = .next t ∧ t.st = .done ∧ t.status = .ok ∧
      t.rHint = hi ∧ t.rHdec = hd ∧ t.rTint = ti ∧ t.rTdec = td ∧ t.rChk = c) ∧
    ∀ j < 40, ∃ t, exec .validate { s with sr := (hi ++ hd ++ ti ++ td ++ c : BitVec 40) ^^^ (1#40 <<< j) } = .next t ∧
      t.st = .done ∧ t.status = .checksumError

/-- 20_memory.md R50: BitStream bit k is bit `7 - (k mod 8)` of byte `k div 8` and sits at `sr[39 - k]` after 40 shifts. -/
def Obligations.FrameBitOrder : Prop :=
  ∀ bs : List Bool, bs.length = 40 → ∀ k < 40,
    some ((shiftAll bs).getLsbD (39 - k)) = bs[k]? ∧
    ([bHint (shiftAll bs), bHdec (shiftAll bs), bTint (shiftAll bs), bTdec (shiftAll bs), bChk (shiftAll bs)][k / 8]?.map
      fun b => b.getLsbD (7 - k % 8)) = bs[k]?

/-! ## Outputs -/

/-- 60_exceptions.md R190 and R192: the output and debug pins as functions of the state; the status and the bytes read 0
while `done` is 0. -/
def Obligations.OutputPinsOfTheState : Prop :=
  ∀ s : State,
    (s.outputs.done = true ↔ s.st = .done) ∧
    (s.outputs.busy = true ↔ s.st = .acquire ∨ s.st = .segment ∨ s.st = .classify ∨ s.st = .validate) ∧
    s.outputs.status = s.status.code ∧ s.outputs.humInt = s.rHint ∧ s.outputs.humDec = s.rHdec ∧
    s.outputs.tmpInt = s.rTint ∧ s.outputs.tmpDec = s.rTdec ∧ s.outputs.chk = s.rChk ∧
    s.debugPins.n = s.n ∧ s.debugPins.min = s.mn ∧ s.debugPins.max = s.mx ∧ s.debugPins.first = s.firstBit ∧ s.debugPins.sr = s.sr ∧
    (s.Inv → s.outputs.done = false →
      s.outputs.status = 0b00#2 ∧ s.outputs.humInt = 0x00#8 ∧ s.outputs.humDec = 0x00#8 ∧ s.outputs.tmpInt = 0x00#8 ∧
      s.outputs.tmpDec = 0x00#8 ∧ s.outputs.chk = 0x00#8)

/-- 30_encoding.md R75: the fields of the RESULT word; it is 0 at reset, and when the status is OK its bits 39:0 are the
validated `sr`. -/
def Obligations.ResultWordFields : Prop :=
  (∀ p : Params, (State.resetOf p).result = 0#44) ∧
  ∀ s : State,
    s.result.getLsbD 43 = decide (s.st = .done) ∧
    s.result.getLsbD 42 = decide (s.st = .acquire ∨ s.st = .segment ∨ s.st = .classify ∨ s.st = .validate) ∧
    s.result.extractLsb' 40 2 = s.status.code ∧ s.result.extractLsb' 32 8 = s.rHint ∧
    s.result.extractLsb' 24 8 = s.rHdec ∧ s.result.extractLsb' 16 8 = s.rTint ∧ s.result.extractLsb' 8 8 = s.rTdec ∧
    s.result.extractLsb' 0 8 = s.rChk ∧
    (s.Inv → s.st = .done → s.status = .ok → s.result.extractLsb' 0 40 = s.sr)

/-! ## Frames -/

/-- 20_memory.md R52: RESET, WAIT, START, ILLEGAL, SAMPLE_FIRST, SAMPLE_EXTEND, SAMPLE_STOP, CLASSIFY and VALIDATE store to no
HRBUF entry. -/
def Obligations.OtherOperationsKeepHrbuf : Prop :=
  ∀ (i : Instr) (s t : State), i ≠ .sampleChange → i ≠ .segment → exec i s = .next t →
    ∀ a : Nat, t.hrbuf.read a = s.hrbuf.read a

/-- 20_memory.md R52: SAMPLE_CHANGE, and SEGMENT under T_SAMPLES, store at most the entry that `close_run` gives as its
index, which then holds the run's length; every other entry reads as before. SEGMENT under WHOLE_RUN stores to none. -/
def Obligations.CloseRunStoresOneEntry : Prop :=
  ∀ s t : State, s.params.legal = true →
    (s.runlen < 2 ^ s.params.runW → exec .sampleChange s = .next t → ∀ a : Nat,
      (s.closeRunIndex s.prev = some a → a = s.n ∧ a < 41 ∧ s.prev = true ∧ t.hrbuf.read a = some s.runlen) ∧
      (s.closeRunIndex s.prev ≠ some a → t.hrbuf.read a = s.hrbuf.read a)) ∧
    (s.runlen = s.params.t + 1 → s.params.trim = .tSamples → exec .segment s = .next t → ∀ a : Nat,
      (s.closeRunIndex s.prev = some a → a = s.n ∧ a < 41 ∧ s.prev = true ∧ t.hrbuf.read a = some 1) ∧
      (s.closeRunIndex s.prev ≠ some a → t.hrbuf.read a = s.hrbuf.read a)) ∧
    (s.params.trim = .wholeRun → exec .segment s = .next t → ∀ a : Nat, t.hrbuf.read a = s.hrbuf.read a)

/-- SEGMENT, CLASSIFY and VALIDATE: the registers each leaves unchanged (42_classify.md R140, R141; 43_validate.md R163). -/
def Obligations.DecodeOperationsFrame : Prop :=
  ∀ s t : State,
    (exec .segment s = .next t →
      t.prev = s.prev ∧ t.runlen = s.runlen ∧ t.sr = s.sr ∧ t.params = s.params ∧ t.stim = s.stim ∧ t.edge = s.edge ∧
      (t.st ≠ .classify → t.idx = s.idx) ∧ (t.st ≠ .validate → t.firstBit = s.firstBit) ∧
      (t.st ≠ .done → t.status = s.status ∧ t.rHint = s.rHint ∧ t.rHdec = s.rHdec ∧ t.rTint = s.rTint ∧
        t.rTdec = s.rTdec ∧ t.rChk = s.rChk) ∧
      (s.params.trim = .wholeRun → t.anyRun = s.anyRun ∧ t.n = s.n ∧ t.mn = s.mn ∧ t.mx = s.mx)) ∧
    (exec .classify s = .next t →
      t.prev = s.prev ∧ t.runlen = s.runlen ∧ t.anyRun = s.anyRun ∧ t.n = s.n ∧ t.mn = s.mn ∧ t.mx = s.mx ∧
      t.status = s.status ∧ t.rHint = s.rHint ∧ t.rHdec = s.rHdec ∧ t.rTint = s.rTint ∧ t.rTdec = s.rTdec ∧
      t.rChk = s.rChk ∧ t.params = s.params ∧ t.stim = s.stim ∧ t.edge = s.edge ∧
      (s.idx.toNat ≠ 0 → t.firstBit = s.firstBit) ∧ (s.idx.toNat = 0 → t.sr = s.sr)) ∧
    (exec .validate s = .next t →
      t.prev = s.prev ∧ t.runlen = s.runlen ∧ t.anyRun = s.anyRun ∧ t.n = s.n ∧ t.mn = s.mn ∧ t.mx = s.mx ∧
      t.idx = s.idx ∧ t.firstBit = s.firstBit ∧ t.sr = s.sr ∧ t.hrbuf = s.hrbuf ∧ t.params = s.params ∧
      t.stim = s.stim ∧ t.edge = s.edge)

/-- 10_state.md R31 and R32: only RESET, START and `finish` (in SEGMENT's empty branch and in VALIDATE) write `status` and the
result bytes. -/
def Obligations.OnlyOutcomesWriteResults : Prop :=
  ∀ (i : Instr) (s t : State), exec i s = .next t →
    (t.status = s.status ∧ t.rHint = s.rHint ∧ t.rHdec = s.rHdec ∧ t.rTint = s.rTint ∧ t.rTdec = s.rTdec ∧
      t.rChk = s.rChk) ∨
    i = .reset ∨ i = .start ∨ (i = .segment ∧ t = s.trimTail.finish .noDataError) ∨
    (i = .validate ∧ ∃ code, t = s.finish code)

/-- The model's choice (log 1, log 3): no operation changes the parameters or the stimulus; a step passes one edge of the
stimulus. -/
def Obligations.OperationsKeepParameters : Prop :=
  (∀ (i : Instr) (s t : State), exec i s = .next t → t.params = s.params ∧ t.stim = s.stim ∧ t.edge = s.edge) ∧
  ∀ s t : State, step s = .next t → t.params = s.params ∧ t.stim = s.stim.tail ∧ t.edge = s.edge + 1

/-! ## The whole machine -/

/-- 40_control.md R105: the transitions are exactly these, by the state before the edge, the pins and, in SEGMENT, the
trimmed trace. -/
def Obligations.TransitionTable : Prop :=
  ∀ s t : State, step s = .next t →
    (s.pins.rst = true → t.st = .idle) ∧
    (s.pins.rst = false →
      (s.st = .idle ∨ s.st = .done → s.pins.start = false → t.st = s.st) ∧
      (s.st = .idle ∨ s.st = .done → s.pins.start = true → t.st = .acquire) ∧
      (s.st = .acquire → ¬ (s.runlen ≠ 0 ∧ s.pins.line = s.prev ∧ s.runlen = s.params.t) → t.st = .acquire) ∧
      (s.st = .acquire → s.runlen ≠ 0 → s.pins.line = s.prev → s.runlen = s.params.t → t.st = .segment) ∧
      (s.st = .segment → s.trimTail.anyRun = false → t.st = .done ∧ t.status = .noDataError) ∧
      (s.st = .segment → s.trimTail.anyRun = true → t.n = 0 → t.st = .validate) ∧
      (s.st = .segment → s.trimTail.anyRun = true → t.n ≠ 0 → t.st = .classify) ∧
      (s.st = .classify → s.idx.toNat + 1 ≠ min s.n 41 → t.st = .classify) ∧
      (s.st = .classify → s.idx.toNat + 1 = min s.n 41 → t.st = .validate) ∧
      (s.st = .validate → t.st = .done) ∧
      (s.st = .illegal6 ∨ s.st = .illegal7 → t.st = .idle))

/-- 60_exceptions.md R187 and 40_control.md R107: DONE is left only by START or RESET, and entered only from SEGMENT or
VALIDATE. -/
def Obligations.DoneEnteredAndLeft : Prop :=
  ∀ s t : State, step s = .next t →
    (s.st = .done → t.st ≠ .done →
      (decode s.selector = some .start ∧ t.st = .acquire) ∨ (decode s.selector = some .reset ∧ t.st = .idle)) ∧
    (s.st ≠ .done → t.st = .done → s.st = .segment ∨ s.st = .validate)

/-- 40_control.md R103: in a busy state the step does not depend on `start`. -/
def Obligations.StartIgnoredWhileBusy : Prop :=
  ∀ (s : State) (e : Edge), s.busy = true →
    step (s.withEdge { e with start := true }) = step (s.withEdge { e with start := false })

/-- 41_acquire.md R120 and 10_state.md R36: outside ACQUIRE the step does not depend on `line_in`. -/
def Obligations.LineIgnoredOutsideAcquire : Prop :=
  ∀ (s : State) (e : Edge) (a b : LineLevel), s.st ≠ .acquire →
    step (s.withEdge { e with line := a }) = step (s.withEdge { e with line := b })

/-- 20_memory.md R54: every step keeps HRBUF's canonical form, its indices in 0..40, from every state that has it
(the list form is the model's choice, log 2). -/
def Obligations.StepKeepsHrbufForm : Prop :=
  State.reset.hrbuf.wf ∧ ∀ s t : State, s.hrbuf.wf → step s = .next t → t.hrbuf.wf

/-- 10_state.md R40: every step keeps the invariant, from every state that has it. -/
def Obligations.StepKeepsInvariant : Prop :=
  ∀ s t : State, s.Inv → step s = .next t → t.Inv

/-- 60_exceptions.md R180 and 20_memory.md R53: from a state with the invariant every step answers a next state; no
unwritten entry is read. -/
def Obligations.InvariantStepsNeverStop : Prop :=
  ∀ s : State, s.Inv → ∃ t, step s = .next t

/-- 40_control.md R107 and 60_exceptions.md R191: in DONE, while `rst` and `start` stay low, nothing changes, for any number
of edges, but the model's stimulus list and edge number (log 3). -/
def Obligations.DoneIsQuiescent : Prop :=
  ∀ (s : State) (k : Nat), s.st = .done → s.NoReset k → s.NoStart k →
    runEdges k s = .next { s with stim := s.stim.drop k, edge := s.edge + k }

/-! ## Reads: the pins of the coming edges come from the stimulus list and, past it, from free words (log 3), so each
statement holds for every sequence of samples. -/

/-- 40_control.md R108: while the line has not stayed at one level for T+1 samples, the read stays in ACQUIRE, for any number
of edges; there is no timeout. -/
def Obligations.UnsettledLineStaysInAcquire : Prop :=
  ∀ (s : State) (k : Nat), s.FreshRead → s.NoReset k → acquireTrace s.params.t (s.samples k) = none →
    ∃ t, runEdges k s = .next t ∧ t.st = .acquire

/-- 41_acquire.md R129: the state just after SEGMENT holds what the source's two passes compute from the read's samples. -/
def Obligations.OnePassEquivalence : Prop :=
  ∀ (s : State) (m : Nat) (hs : List Nat), s.FreshRead → s.NoReset (m + 1) →
    wholeTrace s.params.t (s.samples m) = true → hs = highRuns (trimTrace s.params (s.samples m)) →
    ∃ t, runEdges (m + 1) s = .next t ∧
      (t.anyRun = true ↔ trimTrace s.params (s.samples m) ≠ []) ∧ t.n = min hs.length s.params.nmax ∧
      (∀ i < min hs.length 41, t.hrbuf.read i = hs[i]?) ∧
      (hs ≠ [] → (t.mn ∈ hs ∧ ∀ h ∈ hs, t.mn ≤ h) ∧ t.mx ∈ hs ∧ ∀ h ∈ hs, h ≤ t.mx) ∧
      (hs = [] → t.mn = s.params.all1 ∧ t.mx = 0)

/-- 42_classify.md R142: after SEGMENT leaves `n >= 1`, CLASSIFY runs exactly K times with idx = 0..K-1, each on a written
entry, and then the block is in VALIDATE; with `n = 0` SEGMENT goes straight to VALIDATE. -/
def Obligations.ClassifyRunsExactlyKTimes : Prop :=
  ∀ s u : State, s.Inv → s.st = .segment → s.pins.rst = false → step s = .next u →
    (u.n = 0 → u.anyRun = true → u.st = .validate) ∧
    (u.n ≠ 0 → u.NoReset u.k →
      (∀ j < u.k, ∃ v, runEdges j u = .next v ∧ v.st = .classify ∧ v.idx.toNat = j ∧ v.hrbuf.read j ≠ none) ∧
      ∃ v, runEdges u.k u = .next v ∧ v.st = .validate)

/-- 42_classify.md R144: `first_bit` and `sr` when VALIDATE begins, for a read whose trimmed trace is not empty. -/
def Obligations.ContentsAfterClassification : Prop :=
  ∀ (s : State) (m k : Nat) (bs : List Bool), s.FreshRead → wholeTrace s.params.t (s.samples m) = true →
    trimTrace s.params (s.samples m) ≠ [] →
    bs = classifiedBits s.params (highRuns (trimTrace s.params (s.samples m))) → k = bs.length →
    s.NoReset (m + 1 + k) →
    ∃ t, runEdges (m + 1 + k) s = .next t ∧ t.st = .validate ∧ t.firstBit = bs.headD false ∧
      (∀ i, 1 ≤ i → i < k → some (t.sr.getLsbD (k - 1 - i)) = bs[i]?) ∧
      ∀ j, k - 1 ≤ j → t.sr.getLsbD j = false

/-- 70_reset_and_hazards.md R231: the edges of a read of `m` samples, counted from its START edge, with `rst` low: the state
after each, up to the edge that enters DONE. -/
def Obligations.ReadLatency : Prop :=
  ∀ (s u : State) (m k : Nat), s.params.legal = true → s.st = .idle ∨ s.st = .done → s.pins.start = true →
    s.pins.rst = false → step s = .next u → wholeTrace u.params.t (u.samples m) = true →
    k = min (highRuns (trimTrace u.params (u.samples m))).length 41 →
    u.params.t + 1 ≤ m ∧
    (u.NoReset m → (∀ j < m, ∃ v, runEdges j u = .next v ∧ v.st = .acquire) ∧
      ∃ v, runEdges m u = .next v ∧ v.st = .segment) ∧
    (trimTrace u.params (u.samples m) = [] → u.NoReset (m + 1) →
      ∃ v, runEdges (m + 1) u = .next v ∧ v.st = .done ∧ v.status = .noDataError) ∧
    (trimTrace u.params (u.samples m) ≠ [] → u.NoReset (m + k + 2) →
      (∀ j < k, ∃ v, runEdges (m + 1 + j) u = .next v ∧ v.st = .classify) ∧
      (∃ v, runEdges (m + 1 + k) u = .next v ∧ v.st = .validate) ∧
      ∃ v, runEdges (m + k + 2) u = .next v ∧ v.st = .done ∧ v.status ≠ .noDataError)

/-- 60_exceptions.md R185 and R186: the Reading of a read is the one the spec's two-pass definitions (Machine/Trace.lean)
give from its samples and the parameters alone, whatever HRBUF held before. It claims nothing of the reference software
(43_validate.md R162; 93_implementation_defined.md U13, U14). -/
def Obligations.ReadingIsThatOfTheSamples : Prop :=
  ∀ (s : State) (m k : Nat), s.FreshRead → wholeTrace s.params.t (s.samples m) = true →
    k = (if trimTrace s.params (s.samples m) = [] then m + 1
      else m + 2 + min (highRuns (trimTrace s.params (s.samples m))).length 41) →
    s.NoReset k →
    ∃ t, runEdges k s = .next t ∧ t.reading = some (readTrace s.params (s.samples m))

/-- 41_acquire.md R127: the RunTrace is the one run sequence with lengths at least 1, adjacent levels differing, whose samples
are the trace; a length-1 sequence gives one run. -/
def Obligations.RunTraceIsUnique : Prop :=
  (∀ xs : List Bool,
    runSamples (runTrace xs) = xs ∧ (∀ r ∈ runTrace xs, 1 ≤ r.length) ∧
    (runTrace xs).IsChain (fun a b => a.level ≠ b.level) ∧
    ∀ rs : List Run, runSamples rs = xs → (∀ r ∈ rs, 1 ≤ r.length) → rs.IsChain (fun a b => a.level ≠ b.level) →
      rs = runTrace xs) ∧
  ∀ x : Bool, runTrace [x] = [{ level := x, length := 1 }]

/-- 41_acquire.md R130: the run lengths sum to the trace length, and segmenting the trace rebuilt from the runs gives the same
runs. -/
def Obligations.SegmenterLaws : Prop :=
  ∀ xs : List Bool, ((runTrace xs).map (·.length)).sum = xs.length ∧
    runTrace (runSamples (runTrace xs)) = runTrace xs

/-- 41_acquire.md R126 and R128: a read's samples end in exactly T+1 equal ones, and every run of its trimmed trace has a
length in 1..T, under both TRIM settings. -/
def Obligations.TrimmedRunsWithinThreshold : Prop :=
  ∀ (p : Params) (xs : List Bool), p.legal = true → wholeTrace p.t xs = true →
    (∃ (ys : List Bool) (b : Bool), xs = ys ++ List.replicate (p.t + 1) b ∧ ys.getLast? ≠ some b ∧
      trimTrace p xs = (match p.trim with | .wholeRun => ys | .tSamples => ys ++ [b])) ∧
    ∀ r ∈ runTrace (trimTrace p xs), 1 ≤ r.length ∧ r.length ≤ p.t

/-- 60_exceptions.md R181: NO_DATA_ERROR exactly under WHOLE_RUN for a line that stays at its first level for T+1 samples;
never under T_SAMPLES. -/
def Obligations.NoDataExactlyForUnchangedLine : Prop :=
  ∀ (p : Params) (xs : List Bool), p.legal = true → wholeTrace p.t xs = true →
    ((readTrace p xs).status = .noDataError ↔
      p.trim = .wholeRun ∧ ∃ b : Bool, xs = List.replicate (p.t + 1) b)

/-! ## Stimulus language -/

/-- 30_encoding.md R82: assembly concatenates the statements' words; disassembly by the bits of the word, `rst` first. -/
def Obligations.AssembleAndDisassemble : Prop :=
  (∀ (t : Nat) (a b : List Stmt), assemble t (a ++ b) = assemble t a ++ assemble t b) ∧
  (∀ (t : Nat) (s : Stmt), assemble t [s] = (s.expand t).flatMap BaseStmt.words) ∧
  (∀ w : InWord, w.getLsbD 2 = true → disassemble w = .rst) ∧
  (∀ w : InWord, w.getLsbD 2 = false → w.getLsbD 1 = true → disassemble w = .start) ∧
  (∀ w : InWord, w.getLsbD 2 = false → w.getLsbD 1 = false → disassemble w = .sample (w.getLsbD 0)) ∧
  ∀ w : InWord, w = 0b100#3 ∨ w = 0b010#3 ∨ w = 0b001#3 ∨ w = 0b000#3 → (disassemble w).words = [w]

/-- 30_encoding.md R81: the samples of FRAME hold the handshake pulse and the 40 data HighRuns, short or long as the bits of
the bytes require, most significant first, each between low runs. R81 says that each of g, s, l and h must be in 1..T, or
the trace stops early; the premise `Stmt.wf` is the model's choice (log 14, DEDUCED): it asks only that the counts the
expansion uses are at least 1, so a count may be above T, and an s or l that no bit uses may be anything. -/
def Obligations.FrameStatementHighRuns : Prop :=
  ∀ (t g s l h : Nat) (b0 b1 b2 b3 b4 : Byte), (Stmt.frame g s l h b0 b1 b2 b3 b4).wf = true →
    highRuns ((assemble t [.frame g s l h b0 b1 b2 b3 b4]).map (·.getLsbD 0)) =
      h :: (frameBits b0 b1 b2 b3 b4).map (fun d => if d then l else s)

/-- 30_encoding.md R81: with its counts in 1..T, FRAME does not itself end acquisition, and an IDLE 1 after it ends it at its
last sample; with a count it uses above T, the trace stops early, before FRAME's last sample. R81 says this of each of g, s,
l and h; that both clauses, and the premise `Stmt.wf`, are about the counts the expansion uses, so that an s or l that no bit
uses does not stop the trace, is the model's choice (log 14, DEDUCED from the expansion). -/
def Obligations.FrameStatementAcquisition : Prop :=
  ∀ (t g s l h : Nat) (b0 b1 b2 b3 b4 : Byte) (xs : List Bool), 1 ≤ t →
    (Stmt.frame g s l h b0 b1 b2 b3 b4).wf = true →
    xs = (assemble t [.frame g s l h b0 b1 b2 b3 b4]).map (·.getLsbD 0) →
    (g ≤ t → h ≤ t → (∀ d ∈ frameBits b0 b1 b2 b3 b4, bitCount s l d ≤ t) →
      acquireTrace t xs = none ∧
      wholeTrace t ((assemble t [.frame g s l h b0 b1 b2 b3 b4, .idle true]).map (·.getLsbD 0)) = true) ∧
    (t < g ∨ t < h ∨ (∃ d ∈ frameBits b0 b1 b2 b3 b4, t < bitCount s l d) →
      ∃ ys, acquireTrace t xs = some ys ∧ ys <+: xs ∧ ys.length < xs.length)
end

