-- ==== Sys2Proof/Laws/Decode.lean ====
section
/-! SUPPORT. Sys2Proof/Laws/Decode.lean: which operation a selector word selects, field by field (30_encoding.md R70 to R73). -/

namespace Sys2Proof.Machine

/-- The operation selected by the fields of a selector word: the condition column of 30_encoding.md R71. -/
def opOf (r : Bool) (st : SeqState) (g f e h : Bool) : Instr :=
  if r then .reset
  else
    match st with
    | .idle | .done => if g then .start else .wait
    | .acquire => if f then .sampleFirst else if !e then .sampleChange else if h then .sampleStop else .sampleExtend
    | .segment => .segment
    | .classify => .classify
    | .validate => .validate
    | .illegal6 | .illegal7 => .illegal

theorem decode_selOf (r : Bool) (st : SeqState) (g f e h : Bool) :
    decode (selOf r st g f e h) = some (opOf r st g f e h) := by
  cases r <;> cases st <;> cases g <;> cases f <;> cases e <;> cases h <;> rfl

/-- The operation selected at the coming edge. -/
def State.op (s : State) : Instr := opOf s.pins.rst s.st s.pins.start s.selF s.selE s.selH

theorem State.decode_selector (s : State) : decode s.selector = some s.op := decode_selOf ..

theorem SeqState.ofCode_code (st : SeqState) : SeqState.ofCode st.code = st := by cases st <;> rfl

end Sys2Proof.Machine
end

