-- ==== Sys2Proof/Laws/Frame.lean ====
section
/-! SUPPORT. Sys2Proof/Laws/Frame.lean: the five byte slices of a Frame (20_memory.md R50) and the Frame of five bytes. -/

namespace Sys2Proof.Machine

/-- A slice within the low part of an append. -/
theorem extractLsb'_append_low {a b : Nat} (x : BitVec a) (y : BitVec b) {i n : Nat} (h : i + n ≤ b) :
    (x ++ y).extractLsb' i n = y.extractLsb' i n := by
  apply BitVec.eq_of_getLsbD_eq
  intro j hj
  simp [BitVec.getLsbD_append, hj]
  omega

/-- A slice within the high part of an append. -/
theorem extractLsb'_append_high {a b : Nat} (x : BitVec a) (y : BitVec b) {i n : Nat} (h : b ≤ i) :
    (x ++ y).extractLsb' i n = x.extractLsb' (i - b) n := by
  apply BitVec.eq_of_getLsbD_eq
  intro j hj
  simp [BitVec.getLsbD_append, hj]
  rw [if_neg (by omega)]
  congr 1
  omega

/-- The slices of a Frame put together from five bytes. -/
theorem slices_of_bytes (hi hd ti td c : Byte) :
    bHint (hi ++ hd ++ ti ++ td ++ c) = hi ∧ bHdec (hi ++ hd ++ ti ++ td ++ c) = hd ∧
    bTint (hi ++ hd ++ ti ++ td ++ c) = ti ∧ bTdec (hi ++ hd ++ ti ++ td ++ c) = td ∧
    bChk (hi ++ hd ++ ti ++ td ++ c) = c := by
  refine ⟨?_, ?_, ?_, ?_, ?_⟩
  · rw [bHint, extractLsb'_append_high _ _ (by decide), extractLsb'_append_high _ _ (by decide),
      extractLsb'_append_high _ _ (by decide), extractLsb'_append_high _ _ (by decide)]
    simp
  · rw [bHdec, extractLsb'_append_high _ _ (by decide), extractLsb'_append_high _ _ (by decide),
      extractLsb'_append_high _ _ (by decide), extractLsb'_append_low _ _ (by decide)]
    simp
  · rw [bTint, extractLsb'_append_high _ _ (by decide), extractLsb'_append_high _ _ (by decide),
      extractLsb'_append_low _ _ (by decide)]
    simp
  · rw [bTdec, extractLsb'_append_high _ _ (by decide), extractLsb'_append_low _ _ (by decide)]
    simp
  · rw [bChk, extractLsb'_append_low _ _ (by decide)]
    simp

/-- A Frame is its five slices put together. -/
theorem bytes_of_frame (sr : Frame) : bHint sr ++ bHdec sr ++ bTint sr ++ bTdec sr ++ bChk sr = sr := by
  apply BitVec.eq_of_getLsbD_eq
  intro j hj
  simp only [BitVec.getLsbD_append, bHint, bHdec, bTint, bTdec, bChk, BitVec.getLsbD_extractLsb']
  by_cases h1 : j < 8
  · simp only [h1, if_true, decide_true, Bool.true_and]
    congr 1
    omega
  by_cases h2 : j - 8 < 8
  · simp only [h1, h2, if_true, if_false, decide_true, Bool.true_and]
    congr 1
    omega
  by_cases h3 : j - 8 - 8 < 8
  · simp only [h1, h2, h3, if_true, if_false, decide_true, Bool.true_and]
    congr 1
    omega
  by_cases h4 : j - 8 - 8 - 8 < 8
  · simp only [h1, h2, h3, h4, if_true, if_false, decide_true, Bool.true_and]
    congr 1
    omega
  have h5 : j - 8 - 8 - 8 - 8 < 8 := by omega
  simp only [h1, h2, h3, h4, h5, if_false, decide_true, Bool.true_and]
  congr 1
  omega

end Sys2Proof.Machine
end

