-- ==== Sys2Proof/Laws/Params.lean ====
section
/-! SUPPORT. Sys2Proof/Laws/Params.lean: what a legal build (00_scope.md R5) gives, and narrowing (00_scope.md R8). -/

namespace Sys2Proof

theorem Params.legal_iff (p : Params) :
    p.legal = true ↔ 1 ≤ p.t ∧ p.t ≤ 2 ^ p.runW - 2 ∧ 2 ≤ p.runW ∧ 6 ≤ p.cntW := by
  simp [Params.legal, and_assoc]

theorem Params.legal_default : Params.default.legal = true := by decide

/-- In a legal build T is at least 1 and T + 1 fits in RUN_W bits, and is at most ALL1 (00_scope.md R6). -/
theorem Params.legal_t {p : Params} (h : p.legal = true) : 1 ≤ p.t ∧ p.t + 1 < 2 ^ p.runW ∧ p.t + 1 ≤ p.all1 := by
  obtain ⟨h1, h2, h3, -⟩ := p.legal_iff.1 h
  have : 2 ^ 2 ≤ 2 ^ p.runW := Nat.pow_le_pow_right (by decide) h3
  simp only [Params.all1]
  omega

theorem Params.all1_lt (p : Params) : p.all1 < 2 ^ p.runW := by
  have : 0 < 2 ^ p.runW := Nat.two_pow_pos _
  simp only [Params.all1]
  omega

/-- In a legal build the saturation value is at least 63 and fits in CNT_W bits (00_scope.md R6). -/
theorem Params.legal_nmax {p : Params} (h : p.legal = true) : 63 ≤ p.nmax ∧ p.nmax < 2 ^ p.cntW := by
  obtain ⟨-, -, -, h4⟩ := p.legal_iff.1 h
  have : 2 ^ 6 ≤ 2 ^ p.cntW := Nat.pow_le_pow_right (by decide) h4
  simp only [Params.nmax]
  omega

namespace Machine

theorem narrow_of_lt {w v : Nat} (h : v < 2 ^ w) : narrow w v = v := Nat.mod_eq_of_lt h

theorem narrow_lt (w v : Nat) : narrow w v < 2 ^ w := Nat.mod_lt _ (Nat.two_pow_pos w)

theorem narrow_runW_one {p : Params} (h : p.legal = true) : narrow p.runW 1 = 1 := by
  have := Params.legal_t h
  exact narrow_of_lt (by omega)

end Machine

end Sys2Proof
end

