-- ==== Sys2Proof/Laws/State.lean ====
section
/-! SUPPORT. Sys2Proof/Laws/State.lean: one lemma per field per update, each true by rfl, so that no proof unfolds a record
update. -/

namespace Sys2Proof.Machine

section setRunlen

variable (s : State) (v : Nat)

@[simp] theorem State.setRunlen_st : (s.setRunlen v).st = s.st := rfl
@[simp] theorem State.setRunlen_prev : (s.setRunlen v).prev = s.prev := rfl
@[simp] theorem State.setRunlen_runlen : (s.setRunlen v).runlen = narrow s.params.runW v := rfl
@[simp] theorem State.setRunlen_anyRun : (s.setRunlen v).anyRun = s.anyRun := rfl
@[simp] theorem State.setRunlen_n : (s.setRunlen v).n = s.n := rfl
@[simp] theorem State.setRunlen_mn : (s.setRunlen v).mn = s.mn := rfl
@[simp] theorem State.setRunlen_mx : (s.setRunlen v).mx = s.mx := rfl
@[simp] theorem State.setRunlen_idx : (s.setRunlen v).idx = s.idx := rfl
@[simp] theorem State.setRunlen_firstBit : (s.setRunlen v).firstBit = s.firstBit := rfl
@[simp] theorem State.setRunlen_sr : (s.setRunlen v).sr = s.sr := rfl
@[simp] theorem State.setRunlen_status : (s.setRunlen v).status = s.status := rfl
@[simp] theorem State.setRunlen_rHint : (s.setRunlen v).rHint = s.rHint := rfl
@[simp] theorem State.setRunlen_rHdec : (s.setRunlen v).rHdec = s.rHdec := rfl
@[simp] theorem State.setRunlen_rTint : (s.setRunlen v).rTint = s.rTint := rfl
@[simp] theorem State.setRunlen_rTdec : (s.setRunlen v).rTdec = s.rTdec := rfl
@[simp] theorem State.setRunlen_rChk : (s.setRunlen v).rChk = s.rChk := rfl
@[simp] theorem State.setRunlen_hrbuf : (s.setRunlen v).hrbuf = s.hrbuf := rfl
@[simp] theorem State.setRunlen_params : (s.setRunlen v).params = s.params := rfl
@[simp] theorem State.setRunlen_stim : (s.setRunlen v).stim = s.stim := rfl
@[simp] theorem State.setRunlen_edge : (s.setRunlen v).edge = s.edge := rfl

end setRunlen

section setN

variable (s : State) (v : Nat)

@[simp] theorem State.setN_st : (s.setN v).st = s.st := rfl
@[simp] theorem State.setN_prev : (s.setN v).prev = s.prev := rfl
@[simp] theorem State.setN_runlen : (s.setN v).runlen = s.runlen := rfl
@[simp] theorem State.setN_anyRun : (s.setN v).anyRun = s.anyRun := rfl
@[simp] theorem State.setN_n : (s.setN v).n = narrow s.params.cntW v := rfl
@[simp] theorem State.setN_mn : (s.setN v).mn = s.mn := rfl
@[simp] theorem State.setN_mx : (s.setN v).mx = s.mx := rfl
@[simp] theorem State.setN_idx : (s.setN v).idx = s.idx := rfl
@[simp] theorem State.setN_firstBit : (s.setN v).firstBit = s.firstBit := rfl
@[simp] theorem State.setN_sr : (s.setN v).sr = s.sr := rfl
@[simp] theorem State.setN_status : (s.setN v).status = s.status := rfl
@[simp] theorem State.setN_rHint : (s.setN v).rHint = s.rHint := rfl
@[simp] theorem State.setN_rHdec : (s.setN v).rHdec = s.rHdec := rfl
@[simp] theorem State.setN_rTint : (s.setN v).rTint = s.rTint := rfl
@[simp] theorem State.setN_rTdec : (s.setN v).rTdec = s.rTdec := rfl
@[simp] theorem State.setN_rChk : (s.setN v).rChk = s.rChk := rfl
@[simp] theorem State.setN_hrbuf : (s.setN v).hrbuf = s.hrbuf := rfl
@[simp] theorem State.setN_params : (s.setN v).params = s.params := rfl
@[simp] theorem State.setN_stim : (s.setN v).stim = s.stim := rfl
@[simp] theorem State.setN_edge : (s.setN v).edge = s.edge := rfl

end setN

section setMn

variable (s : State) (v : Nat)

@[simp] theorem State.setMn_st : (s.setMn v).st = s.st := rfl
@[simp] theorem State.setMn_prev : (s.setMn v).prev = s.prev := rfl
@[simp] theorem State.setMn_runlen : (s.setMn v).runlen = s.runlen := rfl
@[simp] theorem State.setMn_anyRun : (s.setMn v).anyRun = s.anyRun := rfl
@[simp] theorem State.setMn_n : (s.setMn v).n = s.n := rfl
@[simp] theorem State.setMn_mn : (s.setMn v).mn = narrow s.params.runW v := rfl
@[simp] theorem State.setMn_mx : (s.setMn v).mx = s.mx := rfl
@[simp] theorem State.setMn_idx : (s.setMn v).idx = s.idx := rfl
@[simp] theorem State.setMn_firstBit : (s.setMn v).firstBit = s.firstBit := rfl
@[simp] theorem State.setMn_sr : (s.setMn v).sr = s.sr := rfl
@[simp] theorem State.setMn_status : (s.setMn v).status = s.status := rfl
@[simp] theorem State.setMn_rHint : (s.setMn v).rHint = s.rHint := rfl
@[simp] theorem State.setMn_rHdec : (s.setMn v).rHdec = s.rHdec := rfl
@[simp] theorem State.setMn_rTint : (s.setMn v).rTint = s.rTint := rfl
@[simp] theorem State.setMn_rTdec : (s.setMn v).rTdec = s.rTdec := rfl
@[simp] theorem State.setMn_rChk : (s.setMn v).rChk = s.rChk := rfl
@[simp] theorem State.setMn_hrbuf : (s.setMn v).hrbuf = s.hrbuf := rfl
@[simp] theorem State.setMn_params : (s.setMn v).params = s.params := rfl
@[simp] theorem State.setMn_stim : (s.setMn v).stim = s.stim := rfl
@[simp] theorem State.setMn_edge : (s.setMn v).edge = s.edge := rfl

end setMn

section setMx

variable (s : State) (v : Nat)

@[simp] theorem State.setMx_st : (s.setMx v).st = s.st := rfl
@[simp] theorem State.setMx_prev : (s.setMx v).prev = s.prev := rfl
@[simp] theorem State.setMx_runlen : (s.setMx v).runlen = s.runlen := rfl
@[simp] theorem State.setMx_anyRun : (s.setMx v).anyRun = s.anyRun := rfl
@[simp] theorem State.setMx_n : (s.setMx v).n = s.n := rfl
@[simp] theorem State.setMx_mn : (s.setMx v).mn = s.mn := rfl
@[simp] theorem State.setMx_mx : (s.setMx v).mx = narrow s.params.runW v := rfl
@[simp] theorem State.setMx_idx : (s.setMx v).idx = s.idx := rfl
@[simp] theorem State.setMx_firstBit : (s.setMx v).firstBit = s.firstBit := rfl
@[simp] theorem State.setMx_sr : (s.setMx v).sr = s.sr := rfl
@[simp] theorem State.setMx_status : (s.setMx v).status = s.status := rfl
@[simp] theorem State.setMx_rHint : (s.setMx v).rHint = s.rHint := rfl
@[simp] theorem State.setMx_rHdec : (s.setMx v).rHdec = s.rHdec := rfl
@[simp] theorem State.setMx_rTint : (s.setMx v).rTint = s.rTint := rfl
@[simp] theorem State.setMx_rTdec : (s.setMx v).rTdec = s.rTdec := rfl
@[simp] theorem State.setMx_rChk : (s.setMx v).rChk = s.rChk := rfl
@[simp] theorem State.setMx_hrbuf : (s.setMx v).hrbuf = s.hrbuf := rfl
@[simp] theorem State.setMx_params : (s.setMx v).params = s.params := rfl
@[simp] theorem State.setMx_stim : (s.setMx v).stim = s.stim := rfl
@[simp] theorem State.setMx_edge : (s.setMx v).edge = s.edge := rfl

end setMx

section hrWrite

variable (s : State) (i v : Nat)

@[simp] theorem State.hrWrite_st : (s.hrWrite i v).st = s.st := rfl
@[simp] theorem State.hrWrite_prev : (s.hrWrite i v).prev = s.prev := rfl
@[simp] theorem State.hrWrite_runlen : (s.hrWrite i v).runlen = s.runlen := rfl
@[simp] theorem State.hrWrite_anyRun : (s.hrWrite i v).anyRun = s.anyRun := rfl
@[simp] theorem State.hrWrite_n : (s.hrWrite i v).n = s.n := rfl
@[simp] theorem State.hrWrite_mn : (s.hrWrite i v).mn = s.mn := rfl
@[simp] theorem State.hrWrite_mx : (s.hrWrite i v).mx = s.mx := rfl
@[simp] theorem State.hrWrite_idx : (s.hrWrite i v).idx = s.idx := rfl
@[simp] theorem State.hrWrite_firstBit : (s.hrWrite i v).firstBit = s.firstBit := rfl
@[simp] theorem State.hrWrite_sr : (s.hrWrite i v).sr = s.sr := rfl
@[simp] theorem State.hrWrite_status : (s.hrWrite i v).status = s.status := rfl
@[simp] theorem State.hrWrite_rHint : (s.hrWrite i v).rHint = s.rHint := rfl
@[simp] theorem State.hrWrite_rHdec : (s.hrWrite i v).rHdec = s.rHdec := rfl
@[simp] theorem State.hrWrite_rTint : (s.hrWrite i v).rTint = s.rTint := rfl
@[simp] theorem State.hrWrite_rTdec : (s.hrWrite i v).rTdec = s.rTdec := rfl
@[simp] theorem State.hrWrite_rChk : (s.hrWrite i v).rChk = s.rChk := rfl
@[simp] theorem State.hrWrite_hrbuf : (s.hrWrite i v).hrbuf = s.hrbuf.write i (narrow s.params.runW v) := rfl
@[simp] theorem State.hrWrite_params : (s.hrWrite i v).params = s.params := rfl
@[simp] theorem State.hrWrite_stim : (s.hrWrite i v).stim = s.stim := rfl
@[simp] theorem State.hrWrite_edge : (s.hrWrite i v).edge = s.edge := rfl

end hrWrite

section nextEdge

variable (s : State)

@[simp] theorem State.nextEdge_st : s.nextEdge.st = s.st := rfl
@[simp] theorem State.nextEdge_prev : s.nextEdge.prev = s.prev := rfl
@[simp] theorem State.nextEdge_runlen : s.nextEdge.runlen = s.runlen := rfl
@[simp] theorem State.nextEdge_anyRun : s.nextEdge.anyRun = s.anyRun := rfl
@[simp] theorem State.nextEdge_n : s.nextEdge.n = s.n := rfl
@[simp] theorem State.nextEdge_mn : s.nextEdge.mn = s.mn := rfl
@[simp] theorem State.nextEdge_mx : s.nextEdge.mx = s.mx := rfl
@[simp] theorem State.nextEdge_idx : s.nextEdge.idx = s.idx := rfl
@[simp] theorem State.nextEdge_firstBit : s.nextEdge.firstBit = s.firstBit := rfl
@[simp] theorem State.nextEdge_sr : s.nextEdge.sr = s.sr := rfl
@[simp] theorem State.nextEdge_status : s.nextEdge.status = s.status := rfl
@[simp] theorem State.nextEdge_rHint : s.nextEdge.rHint = s.rHint := rfl
@[simp] theorem State.nextEdge_rHdec : s.nextEdge.rHdec = s.rHdec := rfl
@[simp] theorem State.nextEdge_rTint : s.nextEdge.rTint = s.rTint := rfl
@[simp] theorem State.nextEdge_rTdec : s.nextEdge.rTdec = s.rTdec := rfl
@[simp] theorem State.nextEdge_rChk : s.nextEdge.rChk = s.rChk := rfl
@[simp] theorem State.nextEdge_hrbuf : s.nextEdge.hrbuf = s.hrbuf := rfl
@[simp] theorem State.nextEdge_params : s.nextEdge.params = s.params := rfl
@[simp] theorem State.nextEdge_stim : s.nextEdge.stim = s.stim.tail := rfl
@[simp] theorem State.nextEdge_edge : s.nextEdge.edge = s.edge + 1 := rfl

end nextEdge

section withEdge

variable (s : State) (e : Edge)

@[simp] theorem State.withEdge_st : (s.withEdge e).st = s.st := rfl
@[simp] theorem State.withEdge_prev : (s.withEdge e).prev = s.prev := rfl
@[simp] theorem State.withEdge_runlen : (s.withEdge e).runlen = s.runlen := rfl
@[simp] theorem State.withEdge_anyRun : (s.withEdge e).anyRun = s.anyRun := rfl
@[simp] theorem State.withEdge_n : (s.withEdge e).n = s.n := rfl
@[simp] theorem State.withEdge_mn : (s.withEdge e).mn = s.mn := rfl
@[simp] theorem State.withEdge_mx : (s.withEdge e).mx = s.mx := rfl
@[simp] theorem State.withEdge_idx : (s.withEdge e).idx = s.idx := rfl
@[simp] theorem State.withEdge_firstBit : (s.withEdge e).firstBit = s.firstBit := rfl
@[simp] theorem State.withEdge_sr : (s.withEdge e).sr = s.sr := rfl
@[simp] theorem State.withEdge_status : (s.withEdge e).status = s.status := rfl
@[simp] theorem State.withEdge_rHint : (s.withEdge e).rHint = s.rHint := rfl
@[simp] theorem State.withEdge_rHdec : (s.withEdge e).rHdec = s.rHdec := rfl
@[simp] theorem State.withEdge_rTint : (s.withEdge e).rTint = s.rTint := rfl
@[simp] theorem State.withEdge_rTdec : (s.withEdge e).rTdec = s.rTdec := rfl
@[simp] theorem State.withEdge_rChk : (s.withEdge e).rChk = s.rChk := rfl
@[simp] theorem State.withEdge_hrbuf : (s.withEdge e).hrbuf = s.hrbuf := rfl
@[simp] theorem State.withEdge_params : (s.withEdge e).params = s.params := rfl
@[simp] theorem State.withEdge_stim : (s.withEdge e).stim = e :: s.stim.tail := rfl
@[simp] theorem State.withEdge_edge : (s.withEdge e).edge = s.edge := rfl

end withEdge

section clearRead

variable (s : State)

@[simp] theorem State.clearRead_st : s.clearRead.st = s.st := rfl
@[simp] theorem State.clearRead_prev : s.clearRead.prev = false := rfl
@[simp] theorem State.clearRead_runlen : s.clearRead.runlen = 0 := rfl
@[simp] theorem State.clearRead_anyRun : s.clearRead.anyRun = false := rfl
@[simp] theorem State.clearRead_n : s.clearRead.n = 0 := rfl
@[simp] theorem State.clearRead_mn : s.clearRead.mn = s.params.all1 := rfl
@[simp] theorem State.clearRead_mx : s.clearRead.mx = 0 := rfl
@[simp] theorem State.clearRead_idx : s.clearRead.idx = 0#6 := rfl
@[simp] theorem State.clearRead_firstBit : s.clearRead.firstBit = false := rfl
@[simp] theorem State.clearRead_sr : s.clearRead.sr = 0#40 := rfl
@[simp] theorem State.clearRead_status : s.clearRead.status = .ok := rfl
@[simp] theorem State.clearRead_rHint : s.clearRead.rHint = 0#8 := rfl
@[simp] theorem State.clearRead_rHdec : s.clearRead.rHdec = 0#8 := rfl
@[simp] theorem State.clearRead_rTint : s.clearRead.rTint = 0#8 := rfl
@[simp] theorem State.clearRead_rTdec : s.clearRead.rTdec = 0#8 := rfl
@[simp] theorem State.clearRead_rChk : s.clearRead.rChk = 0#8 := rfl
@[simp] theorem State.clearRead_hrbuf : s.clearRead.hrbuf = s.hrbuf := rfl
@[simp] theorem State.clearRead_params : s.clearRead.params = s.params := rfl
@[simp] theorem State.clearRead_stim : s.clearRead.stim = s.stim := rfl
@[simp] theorem State.clearRead_edge : s.clearRead.edge = s.edge := rfl

end clearRead

section openRun

variable (s : State)

@[simp] theorem State.openRun_st : s.openRun.st = s.st := rfl
@[simp] theorem State.openRun_prev : s.openRun.prev = s.pins.line := rfl
@[simp] theorem State.openRun_runlen : s.openRun.runlen = narrow s.params.runW 1 := rfl
@[simp] theorem State.openRun_anyRun : s.openRun.anyRun = s.anyRun := rfl
@[simp] theorem State.openRun_n : s.openRun.n = s.n := rfl
@[simp] theorem State.openRun_mn : s.openRun.mn = s.mn := rfl
@[simp] theorem State.openRun_mx : s.openRun.mx = s.mx := rfl
@[simp] theorem State.openRun_idx : s.openRun.idx = s.idx := rfl
@[simp] theorem State.openRun_firstBit : s.openRun.firstBit = s.firstBit := rfl
@[simp] theorem State.openRun_sr : s.openRun.sr = s.sr := rfl
@[simp] theorem State.openRun_status : s.openRun.status = s.status := rfl
@[simp] theorem State.openRun_rHint : s.openRun.rHint = s.rHint := rfl
@[simp] theorem State.openRun_rHdec : s.openRun.rHdec = s.rHdec := rfl
@[simp] theorem State.openRun_rTint : s.openRun.rTint = s.rTint := rfl
@[simp] theorem State.openRun_rTdec : s.openRun.rTdec = s.rTdec := rfl
@[simp] theorem State.openRun_rChk : s.openRun.rChk = s.rChk := rfl
@[simp] theorem State.openRun_hrbuf : s.openRun.hrbuf = s.hrbuf := rfl
@[simp] theorem State.openRun_params : s.openRun.params = s.params := rfl
@[simp] theorem State.openRun_stim : s.openRun.stim = s.stim := rfl
@[simp] theorem State.openRun_edge : s.openRun.edge = s.edge := rfl

end openRun

end Sys2Proof.Machine
end

