-- ==== Sys2Proof/Laws/Ops.lean ====
section
/-! SUPPORT. Sys2Proof/Laws/Ops.lean: for each shared operation, one lemma that says everything it does. -/

namespace Sys2Proof.Machine

/-- `HRRead` answers the entry's value exactly where the index is one of HRBUF's and the entry has been written. -/
theorem State.hrRead_ok_iff (s : State) (i v : Nat) : s.hrRead i = .ok v ↔ i < 41 ∧ s.hrbuf.read i = some v := by
  simp only [State.hrRead]
  split
  · split <;> simp_all
  · simp_all

/-- `HRRead` faults exactly where the entry has no value (20_memory.md R53) or is none of HRBUF's. -/
theorem State.hrRead_error_iff (s : State) (i : Nat) (f : Fault) :
    s.hrRead i = .error f ↔
      (i < 41 ∧ s.hrbuf.read i = none ∧ f = .hrbufUnwritten i) ∨ (41 ≤ i ∧ f = .hrbufIndexOutOfRange i) := by
  simp only [State.hrRead]
  split
  · next h =>
    have : ¬ 41 ≤ i := by omega
    cases hr : s.hrbuf.read i <;> simp [h, this, eq_comm]
  · next h =>
    have : 41 ≤ i := by omega
    simp_all [eq_comm]

/-- Closing a low run sets `any_run` and nothing else (00_scope.md R11). -/
theorem State.closeRun_low (s : State) (len : Nat) : s.closeRun false len = { s with anyRun := true } := rfl

/-- Closing a high run (00_scope.md R11): the entry, the count and the trackers. -/
theorem State.closeRun_high (s : State) (len : Nat) :
    s.closeRun true len =
      { s with
        anyRun := true
        hrbuf := if s.n < 41 then s.hrbuf.write s.n (narrow s.params.runW len) else s.hrbuf
        n := narrow s.params.cntW (if s.n = s.params.nmax then s.params.nmax else s.n + 1)
        mn := narrow s.params.runW (min s.mn len)
        mx := narrow s.params.runW (max s.mx len) } := by
  by_cases h : s.n < 41 <;>
    simp [State.closeRun, State.closeRunStore, State.closeRunIndex, State.countRun, State.setN, State.setMn, State.setMx,
      State.hrWrite, h]

/-- `finish` with an error code (43_validate.md R163). -/
theorem State.finish_error (s : State) {code : ReadStatus} (h : code ≠ .ok) :
    s.finish code =
      { s with status := code, rHint := 0#8, rHdec := 0#8, rTint := 0#8, rTdec := 0#8, rChk := 0#8, st := .done } := by
  cases code <;> simp_all [State.finish]

section closeRunFields

variable (s : State) (level : Bool) (len : Nat)

@[simp] theorem State.closeRun_st : (s.closeRun level len).st = s.st := by
  cases level <;> simp [State.closeRun_low, State.closeRun_high]
@[simp] theorem State.closeRun_prev : (s.closeRun level len).prev = s.prev := by
  cases level <;> simp [State.closeRun_low, State.closeRun_high]
@[simp] theorem State.closeRun_runlen : (s.closeRun level len).runlen = s.runlen := by
  cases level <;> simp [State.closeRun_low, State.closeRun_high]
@[simp] theorem State.closeRun_anyRun : (s.closeRun level len).anyRun = true := by
  cases level <;> simp [State.closeRun_low, State.closeRun_high]
@[simp] theorem State.closeRun_idx : (s.closeRun level len).idx = s.idx := by
  cases level <;> simp [State.closeRun_low, State.closeRun_high]
@[simp] theorem State.closeRun_firstBit : (s.closeRun level len).firstBit = s.firstBit := by
  cases level <;> simp [State.closeRun_low, State.closeRun_high]
@[simp] theorem State.closeRun_sr : (s.closeRun level len).sr = s.sr := by
  cases level <;> simp [State.closeRun_low, State.closeRun_high]
@[simp] theorem State.closeRun_status : (s.closeRun level len).status = s.status := by
  cases level <;> simp [State.closeRun_low, State.closeRun_high]
@[simp] theorem State.closeRun_rHint : (s.closeRun level len).rHint = s.rHint := by
  cases level <;> simp [State.closeRun_low, State.closeRun_high]
@[simp] theorem State.closeRun_rHdec : (s.closeRun level len).rHdec = s.rHdec := by
  cases level <;> simp [State.closeRun_low, State.closeRun_high]
@[simp] theorem State.closeRun_rTint : (s.closeRun level len).rTint = s.rTint := by
  cases level <;> simp [State.closeRun_low, State.closeRun_high]
@[simp] theorem State.closeRun_rTdec : (s.closeRun level len).rTdec = s.rTdec := by
  cases level <;> simp [State.closeRun_low, State.closeRun_high]
@[simp] theorem State.closeRun_rChk : (s.closeRun level len).rChk = s.rChk := by
  cases level <;> simp [State.closeRun_low, State.closeRun_high]
@[simp] theorem State.closeRun_params : (s.closeRun level len).params = s.params := by
  cases level <;> simp [State.closeRun_low, State.closeRun_high]
@[simp] theorem State.closeRun_stim : (s.closeRun level len).stim = s.stim := by
  cases level <;> simp [State.closeRun_low, State.closeRun_high]
@[simp] theorem State.closeRun_edge : (s.closeRun level len).edge = s.edge := by
  cases level <;> simp [State.closeRun_low, State.closeRun_high]
@[simp] theorem State.closeRun_pins : (s.closeRun level len).pins = s.pins := by simp [State.pins]

end closeRunFields

/-- What `close_run` does to HRBUF: the entry it stores to, where it stores, and no other. -/
theorem State.closeRun_read (s : State) (level : Bool) (len i : Nat) :
    (s.closeRun level len).hrbuf.read i =
      if s.closeRunIndex level = some i then some (narrow s.params.runW len) else s.hrbuf.read i := by
  cases level with
  | false => simp [State.closeRun_low, State.closeRunIndex]
  | true =>
    by_cases h : s.n < 41
    · simp [State.closeRun_high, State.closeRunIndex, h, Memory.read_write, eq_comm]
    · simp [State.closeRun_high, State.closeRunIndex, h]

/-- `close_run` keeps HRBUF's canonical form. -/
theorem State.closeRun_wf {s : State} (h : s.hrbuf.wf) (level : Bool) (len : Nat) : (s.closeRun level len).hrbuf.wf := by
  cases level with
  | false => simpa [State.closeRun_low] using h
  | true =>
    simp only [State.closeRun_high]
    split
    · next hn => exact Memory.wf_write h hn _
    · exact h

/-- `closeRun` on a high run of a length that fits, where the registers fit their widths: no write wraps. -/
theorem State.closeRun_high_fits {s : State} {len : Nat} (hp : s.params.legal = true) (hw : s.Widths)
    (hl : len < 2 ^ s.params.runW) :
    s.closeRun true len =
      { s with
        anyRun := true
        hrbuf := if s.n < 41 then s.hrbuf.write s.n len else s.hrbuf
        n := if s.n = s.params.nmax then s.params.nmax else s.n + 1
        mn := min s.mn len
        mx := max s.mx len } := by
  have hn := Params.legal_nmax hp
  have hn2 : s.params.nmax = 2 ^ s.params.cntW - 1 := rfl
  have h1 : (if s.n = s.params.nmax then s.params.nmax else s.n + 1) < 2 ^ s.params.cntW := by
    have := hw.n
    split <;> omega
  have h2 : min s.mn len < 2 ^ s.params.runW := by omega
  have h3 : max s.mx len < 2 ^ s.params.runW := by have := hw.mx; omega
  rw [State.closeRun_high, narrow_of_lt hl, narrow_of_lt h1, narrow_of_lt h2, narrow_of_lt h3]

/-- The tail SEGMENT closes under T_SAMPLES is 1 where the run open at SAMPLE_STOP has T+1 samples (41_acquire.md R128). -/
theorem State.tailLen_eq_one {s : State} (hp : s.params.legal = true) (h : s.runlen = s.params.t + 1) :
    s.tailLen = 1 := by
  have := Params.legal_t hp
  have h1 : ((s.runlen : Int) - (s.params.t : Int)) = 1 := by omega
  simp only [State.tailLen, h1]
  rw [Int.emod_eq_of_lt (by decide) (by omega)]
  rfl

/-- Where a classified bit goes, as one record (42_classify.md R141). -/
theorem State.takeBit_eq (s : State) (b : Bool) :
    s.takeBit b =
      { s with firstBit := if s.idx = 0#6 then b else s.firstBit, sr := if s.idx = 0#6 then s.sr else shiftIn s.sr b } := by
  unfold State.takeBit
  split <;> rfl

/-- The move to the next index or to VALIDATE, as one record (42_classify.md R141). -/
theorem State.nextIdx_eq (s : State) :
    s.nextIdx =
      { s with st := if s.idx.toNat + 1 = s.k then .validate else s.st
               idx := if s.idx.toNat + 1 = s.k then s.idx else BitVec.ofNat 6 (s.idx.toNat + 1) } := by
  unfold State.nextIdx
  split <;> rfl

/-- CLASSIFY's whole effect on an entry of length `len`, as one record (42_classify.md R141). -/
theorem State.takeBit_nextIdx (s : State) (b : Bool) :
    (s.takeBit b).nextIdx =
      { s with firstBit := if s.idx = 0#6 then b else s.firstBit
               sr := if s.idx = 0#6 then s.sr else shiftIn s.sr b
               st := if s.idx.toNat + 1 = s.k then .validate else s.st
               idx := if s.idx.toNat + 1 = s.k then s.idx else BitVec.ofNat 6 (s.idx.toNat + 1) } := by
  rw [State.nextIdx_eq, State.takeBit_eq]
  rfl

section withSelFields

variable (s : State) (w : Sel)

@[simp] theorem State.giveOperand_st : s.giveOperand.st = s.st := by unfold State.giveOperand; split <;> rfl
@[simp] theorem State.giveOperand_prev : s.giveOperand.prev = s.prev := by unfold State.giveOperand; split <;> rfl
@[simp] theorem State.giveOperand_runlen : s.giveOperand.runlen = s.runlen := by unfold State.giveOperand; split <;> rfl
@[simp] theorem State.giveOperand_params : s.giveOperand.params = s.params := by unfold State.giveOperand; split <;> rfl
@[simp] theorem State.giveOperand_edge : s.giveOperand.edge = s.edge := by unfold State.giveOperand; split <;> rfl
@[simp] theorem State.giveOperand_stim : s.giveOperand.stim = s.stim := by unfold State.giveOperand; split <;> rfl
@[simp] theorem State.giveOperand_idx : s.giveOperand.idx = s.idx := by unfold State.giveOperand; split <;> rfl

@[simp] theorem State.withSel_st : (s.withSel w).st = SeqState.ofCode (w.extractLsb' 4 3) := by simp [State.withSel]
@[simp] theorem State.withSel_runlen :
    (s.withSel w).runlen = runlenFor (w.getLsbD 2) (w.getLsbD 0) s.params.t s.runlen := by simp [State.withSel]
@[simp] theorem State.withSel_prev : (s.withSel w).prev = s.prev := by simp [State.withSel]
@[simp] theorem State.withSel_params : (s.withSel w).params = s.params := by simp [State.withSel]

/-- The pins at a state with an edge presented: the edge's, its line as sampled. -/
theorem State.withEdge_pins (e : Edge) :
    (s.withEdge e).pins = { rst := e.rst, start := e.start, line := e.line.sample (Config.freeSample s.edge) } := rfl

theorem LineLevel.sample_ofBool (free b : Bool) : (LineLevel.ofBool b).sample free = b := by cases b <;> rfl

theorem State.withSel_pins :
    (s.withSel w).pins =
      { rst := w.getLsbD 7, start := w.getLsbD 3, line := if w.getLsbD 1 then s.prev else !s.prev } := by
  simp [State.withSel, State.withEdge_pins, LineLevel.sample_ofBool]

end withSelFields

/-- The bits of `sr` after one shift (42_classify.md R141). -/
theorem shiftIn_getLsbD (sr : Frame) (b : Bool) (i : Nat) :
    (shiftIn sr b).getLsbD i = if i = 0 then b else decide (i < 40) && sr.getLsbD (i - 1) := by
  rcases i with _ | i
  · cases b <;> simp [shiftIn]
  · cases b <;> simp [shiftIn, BitVec.getLsbD_ofNat, Nat.testBit_succ]

/-- The value of `sr` after one shift: `((sr << 1) | b) mod 2^40` (42_classify.md R141). -/
theorem shiftIn_toNat (sr : Frame) (b : Bool) : (shiftIn sr b).toNat = (2 * sr.toNat + b.toNat) % 2 ^ 40 := by
  have h1 : 2 * sr.toNat % 2 ^ 40 = (sr.toNat % 2 ^ 39) <<< 1 := by
    rw [Nat.shiftLeft_eq]
    omega
  have h2 : (BitVec.zeroExtend 40 (BitVec.ofBool b)).toNat = b.toNat := by cases b <;> rfl
  have h3 : (sr <<< 1).toNat = (sr.toNat % 2 ^ 39) <<< 1 := by
    rw [← h1, BitVec.toNat_shiftLeft, Nat.shiftLeft_eq, Nat.mul_comm]
  have h4 : b.toNat < 2 ^ 1 := by cases b <;> decide
  rw [shiftIn, BitVec.toNat_or, h2, h3, ← Nat.shiftLeft_add_eq_or_of_lt h4, ← h1]
  omega

end Sys2Proof.Machine
end

