-- ==== Sys2Proof/Laws/PerInstr.lean ====
section
/-! SUPPORT. Sys2Proof/Laws/PerInstr.lean: the statements made of every operation, one lemma per constructor. -/

namespace Sys2Proof.Laws.Encoding

/-- Every word of the operation's pattern, whatever its don't-care bits, decodes to the operation, and its fixed bits are
those of its row (30_encoding.md R71). -/
def Statement (i : Instr) : Prop :=
  ∀ fill : Sel, decode (encodeWith fill i) = some i ∧ encodeWith fill i &&& i.mask = i.matchBits

theorem reset : Statement .reset := by unfold Statement; decide
theorem wait : Statement .wait := by unfold Statement; decide
theorem start : Statement .start := by unfold Statement; decide
theorem sampleFirst : Statement .sampleFirst := by unfold Statement; decide
theorem sampleChange : Statement .sampleChange := by unfold Statement; decide
theorem sampleExtend : Statement .sampleExtend := by unfold Statement; decide
theorem sampleStop : Statement .sampleStop := by unfold Statement; decide
theorem segment : Statement .segment := by unfold Statement; decide
theorem classify : Statement .classify := by unfold Statement; decide
theorem validate : Statement .validate := by unfold Statement; decide
theorem illegal : Statement .illegal := by unfold Statement; decide

end Sys2Proof.Laws.Encoding
end

