-- ==== Sys2Proof/Laws/Step.lean ====
section
/-! SUPPORT. Sys2Proof/Laws/Step.lean: what one step can do, said once, and runs of several edges. -/

namespace Sys2Proof.Machine

/-- A step runs the selected operation and passes the edge. -/
theorem step_eq (s : State) : step s = passEdge (exec s.op s) := by
  simp [step, State.decode_selector]

theorem passEdge_eq_next {o : Host.Outcome State Fault Refusal} {t : State} (h : passEdge o = .next t) :
    ∃ u, o = .next u ∧ t = u.nextEdge := by
  cases o with
  | next u => exact ⟨u, rfl, by simpa [passEdge, eq_comm] using h⟩
  | fault f => simp [passEdge] at h
  | refused r => simp [passEdge] at h

/-- A step that answers a next state ran its operation to a next state, and the edge has passed. -/
theorem step_next {s t : State} (h : step s = .next t) : ∃ u, exec s.op s = .next u ∧ t = u.nextEdge :=
  passEdge_eq_next (step_eq s ▸ h)

/-- CLASSIFY answers a next state only with a value in `HRBUF[idx]`. -/
theorem execClassify_next {s u : State} (h : execClassify s = .next u) :
    ∃ len, s.idx.toNat < 41 ∧ s.hrbuf.read s.idx.toNat = some len ∧
      u = (s.takeBit (classifyLen s.mn s.mx len)).nextIdx := by
  simp only [execClassify] at h
  split at h
  · next len hl =>
    obtain ⟨h1, h2⟩ := (s.hrRead_ok_iff _ _).1 hl
    exact ⟨len, h1, h2, by simpa [eq_comm] using h⟩
  · simp at h

/-- CLASSIFY with a value in `HRBUF[idx]` (42_classify.md R141). -/
theorem execClassify_of_read {s : State} {len : Nat} (hi : s.idx.toNat < 41) (hr : s.hrbuf.read s.idx.toNat = some len) :
    execClassify s = .next (s.takeBit (classifyLen s.mn s.mx len)).nextIdx := by
  simp only [execClassify, (s.hrRead_ok_iff _ _).2 ⟨hi, hr⟩]

/-- Everything an operation that answers a next state can have done: its own effect, as its rule gives it. -/
theorem exec_next {i : Instr} {s u : State} (h : exec i s = .next u) :
    (i = .reset ∧ u = { s.clearRead with st := .idle }) ∨
    (i = .wait ∧ u = s) ∨
    (i = .start ∧ u = { s.clearRead with st := .acquire }) ∨
    (i = .sampleFirst ∧ u = s.openRun) ∨
    (i = .sampleChange ∧ u = (s.closeRun s.prev s.runlen).openRun) ∨
    (i = .sampleExtend ∧ u = s.setRunlen (s.runlen + 1)) ∨
    (i = .sampleStop ∧ u = { s.setRunlen (s.runlen + 1) with st := .segment }) ∨
    (i = .segment ∧ u = s.trimTail.endAcquisition) ∨
    (i = .classify ∧ ∃ len, s.idx.toNat < 41 ∧ s.hrbuf.read s.idx.toNat = some len ∧
      u = (s.takeBit (classifyLen s.mn s.mx len)).nextIdx) ∨
    (i = .validate ∧ u = s.finish s.validateCode) ∨
    (i = .illegal ∧ u = { s with st := .idle }) := by
  cases i with
  | classify => simpa using execClassify_next h
  | _ => injection h with h; simp [← h]

/-- Everything a step that answers a next state can have done: the condition that selected the operation (30_encoding.md
R71) and the operation's effect, with the edge passed. -/
theorem step_cases {s t : State} (h : step s = .next t) :
    (s.pins.rst = true ∧ t = { s.clearRead with st := .idle }.nextEdge) ∨
    (s.pins.rst = false ∧
      (((s.st = .idle ∨ s.st = .done) ∧ s.pins.start = false ∧ t = s.nextEdge) ∨
      ((s.st = .idle ∨ s.st = .done) ∧ s.pins.start = true ∧ t = { s.clearRead with st := .acquire }.nextEdge) ∨
      (s.st = .acquire ∧ s.runlen = 0 ∧ t = s.openRun.nextEdge) ∨
      (s.st = .acquire ∧ s.runlen ≠ 0 ∧ s.pins.line ≠ s.prev ∧
        t = (s.closeRun s.prev s.runlen).openRun.nextEdge) ∨
      (s.st = .acquire ∧ s.runlen ≠ 0 ∧ s.pins.line = s.prev ∧ s.runlen ≠ s.params.t ∧
        t = (s.setRunlen (s.runlen + 1)).nextEdge) ∨
      (s.st = .acquire ∧ s.runlen ≠ 0 ∧ s.pins.line = s.prev ∧ s.runlen = s.params.t ∧
        t = { s.setRunlen (s.runlen + 1) with st := .segment }.nextEdge) ∨
      (s.st = .segment ∧ t = s.trimTail.endAcquisition.nextEdge) ∨
      (s.st = .classify ∧ ∃ len, s.idx.toNat < 41 ∧ s.hrbuf.read s.idx.toNat = some len ∧
        t = (s.takeBit (classifyLen s.mn s.mx len)).nextIdx.nextEdge) ∨
      (s.st = .validate ∧ t = (s.finish s.validateCode).nextEdge) ∨
      ((s.st = .illegal6 ∨ s.st = .illegal7) ∧ t = { s with st := .idle }.nextEdge))) := by
  obtain ⟨u, hu, rfl⟩ := step_next h
  simp only [State.op, opOf, State.selF, State.selE, State.selH] at hu
  cases hr : s.pins.rst with
  | true =>
    rw [if_pos hr] at hu
    injection hu with hu
    exact .inl ⟨rfl, by rw [hu]⟩
  | false =>
    refine .inr ⟨rfl, ?_⟩
    rw [if_neg (by simp [hr])] at hu
    cases hs : s.st with
    | idle | done => simp only [hs] at hu; cases hg : s.pins.start <;> simp [hg, exec, execWait, execStart] at hu <;> simp [hu]
    | acquire =>
      simp only [hs] at hu
      by_cases h1 : s.runlen = 0
      · simp [h1, exec, execSampleFirst] at hu
        simp [h1, hu]
      · by_cases h2 : s.pins.line = s.prev
        · by_cases h3 : s.runlen = s.params.t
          · simp only [decide_eq_false h1, decide_eq_true h2, decide_eq_true h3, Bool.not_true, Bool.false_eq_true,
              if_false, if_true] at hu
            injection hu with hu
            simp only [reduceCtorEq, false_and, or_false, false_or, true_and]
            exact .inr (.inr (.inr ⟨h1, h2, h3, by rw [← hu]⟩))
          · simp [h1, h2, h3, exec, execSampleExtend] at hu
            simp [h1, h2, h3, hu]
        · simp [h1, h2, exec, execSampleChange] at hu
          simp [h1, h2, hu]
    | segment => simp only [hs] at hu; injection hu with hu; simp [hu]
    | classify =>
      simp only [hs] at hu
      obtain ⟨len, h1, h2, h3⟩ := execClassify_next hu
      simp only [reduceCtorEq, false_and, or_false, false_or, true_and]
      exact ⟨len, h1, h2, by rw [h3]⟩
    | validate => simp only [hs] at hu; injection hu with hu; simp [hu]
    | illegal6 | illegal7 => simp only [hs] at hu; injection hu with hu; simp [← hu]

/-- Only CLASSIFY can stop, and only on an HRBUF entry without a value (20_memory.md R53, R54). -/
theorem exec_not_next {i : Instr} {s : State} (h : ∀ u, exec i s ≠ .next u) :
    i = .classify ∧ ∃ f, exec i s = .fault f ∧ s.hrRead s.idx.toNat = .error f := by
  cases i with
  | classify =>
    refine ⟨rfl, ?_⟩
    cases hr : s.hrRead s.idx.toNat with
    | ok len => exact absurd (by simp [exec, execClassify, hr]) (h (s.takeBit (classifyLen s.mn s.mx len)).nextIdx)
    | error f => exact ⟨f, by simp [exec, execClassify, hr], rfl⟩
  | _ => exact absurd rfl (h _)

@[simp] theorem State.pinsAt_zero (s : State) : s.pinsAt 0 = s.pins := by simp [State.pinsAt, State.pins]

/-- The pins of later edges depend on the listed stimulus and the edge number alone. -/
theorem State.pinsAt_congr {s t : State} (h1 : t.stim = s.stim) (h2 : t.edge = s.edge) (k : Nat) :
    t.pinsAt k = s.pinsAt k := by simp [State.pinsAt, h1, h2]

@[simp] theorem State.pinsAt_nextEdge (s : State) (k : Nat) : s.nextEdge.pinsAt k = s.pinsAt (k + 1) := by
  simp [State.pinsAt, Nat.add_assoc, Nat.add_comm 1 k]

theorem runEdges_zero (s : State) : runEdges 0 s = .next s := rfl

/-- One more edge in front. -/
theorem runEdges_succ_of_step {s t : State} (h : step s = .next t) (k : Nat) : runEdges (k + 1) s = runEdges k t := by
  have h' : Host.Core.step Sys2Proof.core s = .next t := h
  simp only [runEdges, Host.Core.run]
  rw [h']

/-- A run of `j + k` edges is a run of `j`, then of `k`. -/
theorem runEdges_add {s t : State} {j : Nat} (h : runEdges j s = .next t) (k : Nat) :
    runEdges (j + k) s = runEdges k t := by
  induction j generalizing s with
  | zero => rw [runEdges_zero] at h; injection h with h; simp [h]
  | succ j ih =>
    rw [Nat.succ_add]
    have hs : Host.Core.step Sys2Proof.core s = step s := rfl
    cases hst : step s with
    | next u => rw [runEdges_succ_of_step hst] at h ⊢; exact ih h
    | fault f => simp only [runEdges, Host.Core.run] at h; rw [hs, hst] at h; simp at h
    | refused r => simp only [runEdges, Host.Core.run] at h; rw [hs, hst] at h; simp at h

/-! What an operation does with the edge it runs at: it reads the sampled line at most. -/

theorem State.closeRun_withEdge (s : State) (e : Edge) (level : Bool) (len : Nat) :
    (s.withEdge e).closeRun level len = { s.closeRun level len with stim := e :: s.stim.tail } := by
  cases level with
  | false => rfl
  | true => rw [State.closeRun_high, State.closeRun_high]; rfl

theorem State.trimTail_withEdge (s : State) (e : Edge) :
    (s.withEdge e).trimTail = { s.trimTail with stim := e :: s.stim.tail } := by
  simp only [State.trimTail, State.withEdge_params]
  cases s.params.trim with
  | wholeRun => rfl
  | tSamples => exact s.closeRun_withEdge e s.prev s.tailLen

/-- What an operation does with the edge passed depends on the presented edge through the sampled line alone, and only in
SAMPLE_FIRST and SAMPLE_CHANGE. -/
theorem passEdge_exec_withEdge (i : Instr) (s : State) (e e' : Edge)
    (h : e.line.sample (Config.freeSample s.edge) = e'.line.sample (Config.freeSample s.edge) ∨
      (i ≠ .sampleFirst ∧ i ≠ .sampleChange)) :
    passEdge (exec i (s.withEdge e)) = passEdge (exec i (s.withEdge e')) := by
  cases i with
  | sampleFirst =>
    have h : (s.withEdge e).pins.line = (s.withEdge e').pins.line := by simpa [State.withEdge_pins] using h
    simp only [exec, execSampleFirst, State.openRun, h]
    rfl
  | sampleChange =>
    have hp : ∀ e : Edge, ({ s.closeRun s.prev s.runlen with stim := e :: s.stim.tail } : State).pins.line =
        e.line.sample (Config.freeSample s.edge) := fun e => by simp [State.pins, pinsOf]
    have hl : e.line.sample (Config.freeSample s.edge) = e'.line.sample (Config.freeSample s.edge) := by simpa using h
    simp only [exec, execSampleChange, State.closeRun_withEdge, State.withEdge_prev, State.withEdge_runlen,
      State.openRun, hp, hl]
    rfl
  | segment =>
    simp only [exec, execSegment, State.trimTail_withEdge, State.endAcquisition]
    split
    · rfl
    · split <;> rfl
  | classify =>
    simp only [exec, execClassify]
    have : (s.withEdge e).hrRead (s.withEdge e).idx.toNat = (s.withEdge e').hrRead (s.withEdge e').idx.toNat := rfl
    rw [this]
    split
    · simp only [State.takeBit_nextIdx]
      rfl
    · rfl
  | validate =>
    simp only [exec, execValidate]
    have : (s.withEdge e).validateCode = (s.withEdge e').validateCode := rfl
    rw [this]
    cases (s.withEdge e').validateCode <;> rfl
  | _ => rfl

/-- A step depends on the presented edge through the selected operation and, at most, the sampled line. -/
theorem step_withEdge (s : State) (e e' : Edge) (hop : (s.withEdge e).op = (s.withEdge e').op)
    (h : e.line.sample (Config.freeSample s.edge) = e'.line.sample (Config.freeSample s.edge) ∨
      ((s.withEdge e').op ≠ .sampleFirst ∧ (s.withEdge e').op ≠ .sampleChange)) :
    step (s.withEdge e) = step (s.withEdge e') := by
  rw [step_eq, step_eq, hop]
  exact passEdge_exec_withEdge _ s e e' h

end Sys2Proof.Machine
end

