-- ==== Sys2Proof/Laws/Stimulus.lean ====
section
/-! SUPPORT. Sys2Proof/Laws/Stimulus.lean: the counts of a FRAME and the samples of the stimulus language's words
(30_encoding.md R80, R81). -/

namespace Sys2Proof.Machine

/-- The counts a FRAME's expansion uses are at least 1 (the model's reading of 30_encoding.md R81: log 14). -/
theorem Stmt.frame_wf_iff {g s l h : Nat} {b0 b1 b2 b3 b4 : Byte} :
    (Stmt.frame g s l h b0 b1 b2 b3 b4).wf = true ↔
      1 ≤ g ∧ 1 ≤ h ∧ ∀ d ∈ frameBits b0 b1 b2 b3 b4, 1 ≤ bitCount s l d := by
  simp [Stmt.wf, and_assoc]

/-- One statement assembles to its expansion's words (30_encoding.md R82). -/
theorem assemble_cons (t : Nat) (x : Stmt) (p : List Stmt) :
    assemble t (x :: p) = (x.expand t).flatMap BaseStmt.words ++ assemble t p := by
  simp [assemble]

/-- The samples of `RUN v, c`. -/
theorem runStmts_samples (v : Bool) (c : Nat) :
    ((runStmts v c).flatMap BaseStmt.words).map (·.getLsbD 0) = List.replicate c v := by
  cases v <;> simp [runStmts, BaseStmt.words, List.flatMap_replicate]

/-- The samples of a list of data bits, each after its low gap. -/
theorem bitStmts_samples (g s l : Nat) (ds : List Bool) :
    ((ds.flatMap fun d => bitStmts d g s l).flatMap BaseStmt.words).map (·.getLsbD 0) =
      ds.flatMap fun d => List.replicate g false ++ List.replicate (bitCount s l d) true := by
  induction ds with
  | nil => rfl
  | cons d ds ih =>
    simp only [List.flatMap_cons, List.flatMap_append, List.map_append, ← ih, runStmts_samples, bitStmts]

end Sys2Proof.Machine
end

