-- ==== Sys2Proof/Laws/Trace.lean ====
section
/-! SUPPORT. Sys2Proof/Laws/Trace.lean: run traces cut where the level changes (41_acquire.md R127), where acquisition stops in
a sample sequence (R121), and the pins of the coming edges as one edge passes (30_encoding.md R79). -/

namespace Sys2Proof.Machine

theorem runTrace_cons (x : Bool) (xs : List Bool) :
    runTrace (x :: xs) =
      match runTrace xs with
      | [] => [{ level := x, length := 1 }]
      | r :: rs =>
        if r.level = x then { r with length := r.length + 1 } :: rs else { level := x, length := 1 } :: r :: rs := rfl

theorem runTrace_eq_nil {xs : List Bool} : runTrace xs = [] ↔ xs = [] := by
  cases xs with
  | nil => simp [runTrace]
  | cons x xs =>
    rw [runTrace_cons]
    split
    · simp
    · split <;> simp

/-- The first run has the first sample's level. -/
theorem runTrace_head_level (xs : List Bool) : (runTrace xs).head?.map (·.level) = xs.head? := by
  cases xs with
  | nil => simp [runTrace]
  | cons x xs =>
    rw [runTrace_cons]
    split
    · simp
    · split <;> simp_all

/-- A trace cut at a change of level: the runs of the two parts, one after the other. -/
theorem runTrace_append {xs ys : List Bool} (h : xs.getLast? ≠ ys.head? ∨ ys = []) :
    runTrace (xs ++ ys) = runTrace xs ++ runTrace ys := by
  induction xs with
  | nil => simp [runTrace]
  | cons x xs ih =>
    rcases xs with _ | ⟨x', xs⟩
    · rcases ys with _ | ⟨y, ys⟩
      · simp [runTrace]
      · have hxy : y ≠ x := by simpa [eq_comm] using h
        have hh := runTrace_head_level (y :: ys)
        rw [List.singleton_append, runTrace_cons]
        cases hr : runTrace (y :: ys) with
        | nil => simp [runTrace_eq_nil] at hr
        | cons r rs =>
          rw [hr] at hh
          have hl : r.level ≠ x := by
            simp at hh
            rw [hh]
            exact hxy
          simp [hl, runTrace]
    · have ih := ih (by simpa using h)
      rw [List.cons_append, runTrace_cons, ih, runTrace_cons x (x' :: xs)]
      cases hr : runTrace (x' :: xs) with
      | nil => simp [runTrace_eq_nil] at hr
      | cons r rs =>
        simp only [List.cons_append]
        split <;> simp

/-- Equal samples are one run. -/
theorem runTrace_replicate (b : Bool) {n : Nat} (h : 1 ≤ n) :
    runTrace (List.replicate n b) = [{ level := b, length := n }] := by
  obtain ⟨n, rfl⟩ : ∃ m, n = m + 1 := ⟨n - 1, by omega⟩
  clear h
  induction n with
  | zero => rfl
  | succ n ih => rw [List.replicate_succ, runTrace_cons, ih]; simp

theorem highRuns_append {xs ys : List Bool} (h : xs.getLast? ≠ ys.head? ∨ ys = []) :
    highRuns (xs ++ ys) = highRuns xs ++ highRuns ys := by
  simp [highRuns, runTrace_append h]

theorem highRuns_replicate (b : Bool) {n : Nat} (h : 1 ≤ n) :
    highRuns (List.replicate n b) = if b then [n] else [] := by
  rw [highRuns, runTrace_replicate b h]
  cases b <;> simp

/-- One more data bit shifted in (10_state.md R30). -/
theorem shiftAll_append_singleton (bs : List Bool) (b : Bool) : shiftAll (bs ++ [b]) = shiftIn (shiftAll bs) b := by
  simp [shiftAll]

/-! Acquisition over a sample sequence (41_acquire.md R121). -/

/-- A trace that begins with equal samples has them in its first run. -/
theorem runTrace_replicate_append (n : Nat) (p : Bool) (xs : List Bool) :
    ∃ r rs, runTrace (List.replicate (n + 1) p ++ xs) = r :: rs ∧ r.level = p ∧ n + 1 ≤ r.length := by
  induction n with
  | zero =>
    rw [show List.replicate 1 p ++ xs = p :: xs from rfl, runTrace_cons]
    split
    · exact ⟨_, _, rfl, rfl, Nat.le_refl _⟩
    · split
      · next h => exact ⟨_, _, rfl, h, by simp⟩
      · exact ⟨_, _, rfl, rfl, Nat.le_refl _⟩
  | succ n ih =>
    obtain ⟨r, rs, h1, h2, h3⟩ := ih
    rw [List.replicate_succ, List.cons_append, runTrace_cons, h1]
    simp only [h2, if_true]
    exact ⟨_, _, rfl, rfl, by simp; omega⟩

theorem acquireFrom_eq_none_iff {t : Nat} (xs : List Bool) {p : Bool} {u : Nat} (hu : u < t) :
    acquireFrom t p u xs = none ↔ ∀ r ∈ runTrace (List.replicate (u + 1) p ++ xs), r.length ≤ t := by
  induction xs generalizing p u with
  | nil =>
    simp [acquireFrom, runTrace_replicate p (Nat.le_add_left 1 u)]
    omega
  | cons x xs ih =>
    simp only [acquireFrom]
    by_cases hx : x = p
    · subst hx
      have e : List.replicate (u + 1) x ++ x :: xs = List.replicate (u + 1 + 1) x ++ xs := by
        rw [List.replicate_succ' (n := u + 1)]
        simp
      rw [if_pos rfl, e]
      by_cases ht : u + 1 = t
      · obtain ⟨r, rs, h1, -, h3⟩ := runTrace_replicate_append (u + 1) x xs
        rw [if_pos ht, h1]
        simp
        intro h
        omega
      · rw [if_neg ht, Option.map_eq_none_iff, ih (by omega)]
    · have e : runTrace (List.replicate (u + 1) p ++ x :: xs) = runTrace (List.replicate (u + 1) p) ++ runTrace (x :: xs) :=
        runTrace_append (.inl (by simpa [List.getLast?_replicate, eq_comm] using hx))
      rw [if_neg hx, Option.map_eq_none_iff, ih (by omega), e, runTrace_replicate p (Nat.le_add_left 1 u)]
      simp
      omega

/-- Acquisition does not stop within the samples given exactly where no run of them is longer than T. -/
theorem acquireTrace_eq_none_iff {t : Nat} (ht : 1 ≤ t) (xs : List Bool) :
    acquireTrace t xs = none ↔ ∀ r ∈ runTrace xs, r.length ≤ t := by
  cases xs with
  | nil => simp [acquireTrace, runTrace]
  | cons x xs =>
    simp only [acquireTrace, Option.map_eq_none_iff]
    exact acquireFrom_eq_none_iff xs ht

/-- What follows the stopping sample does not matter. -/
theorem acquireFrom_append {t : Nat} {xs ys zs : List Bool} {p : Bool} {u : Nat} (h : acquireFrom t p u xs = some ys) :
    acquireFrom t p u (xs ++ zs) = some ys := by
  induction xs generalizing p u ys with
  | nil => simp [acquireFrom] at h
  | cons x xs ih =>
    simp only [List.cons_append, acquireFrom] at h ⊢
    split at h
    · next hx =>
      rw [if_pos hx]
      split at h
      · next hu => rw [if_pos hu]; exact h
      · next hu =>
        obtain ⟨ws, h1, rfl⟩ := Option.map_eq_some_iff.1 h
        rw [if_neg hu, ih h1]
        rfl
    · next hx =>
      obtain ⟨ws, h1, rfl⟩ := Option.map_eq_some_iff.1 h
      rw [if_neg hx, ih h1]
      rfl

theorem acquireFrom_prefix {t : Nat} {xs ys : List Bool} {p : Bool} {u : Nat} (h : acquireFrom t p u xs = some ys) :
    ys <+: xs := by
  induction xs generalizing p u ys with
  | nil => simp [acquireFrom] at h
  | cons x xs ih =>
    simp only [acquireFrom] at h
    split at h
    · split at h
      · simp at h
        exact h ▸ ⟨xs, rfl⟩
      · obtain ⟨ws, h1, rfl⟩ := Option.map_eq_some_iff.1 h
        exact List.cons_prefix_cons.2 ⟨rfl, ih h1⟩
    · obtain ⟨ws, h1, rfl⟩ := Option.map_eq_some_iff.1 h
      exact List.cons_prefix_cons.2 ⟨rfl, ih h1⟩

theorem acquireTrace_append {t : Nat} {xs ys zs : List Bool} (h : acquireTrace t xs = some ys) :
    acquireTrace t (xs ++ zs) = some ys := by
  cases xs with
  | nil => simp [acquireTrace] at h
  | cons x xs =>
    obtain ⟨ws, h1, rfl⟩ := Option.map_eq_some_iff.1 h
    simp [acquireTrace, acquireFrom_append h1]

/-- A read's samples are the first of those given. -/
theorem acquireTrace_prefix {t : Nat} {xs ys : List Bool} (h : acquireTrace t xs = some ys) : ys <+: xs := by
  cases xs with
  | nil => simp [acquireTrace] at h
  | cons x xs =>
    obtain ⟨ws, h1, rfl⟩ := Option.map_eq_some_iff.1 h
    exact List.cons_prefix_cons.2 ⟨rfl, acquireFrom_prefix h1⟩

/-! The samples and the resets of the coming edges. -/

theorem State.samples_succ (s : State) (k : Nat) : s.samples (k + 1) = s.pins.line :: s.nextEdge.samples k := by
  simp [State.samples, List.range_succ_eq_map, List.map_map, Function.comp_def]

theorem State.samples_congr {s t : State} (h1 : t.stim = s.stim) (h2 : t.edge = s.edge) (k : Nat) :
    t.samples k = s.samples k := by
  simp [State.samples, State.pinsAt_congr h1 h2]

theorem State.samples_length (s : State) (k : Nat) : (s.samples k).length = k := by simp [State.samples]

theorem State.NoReset.succ {s : State} {m : Nat} (h : s.NoReset (m + 1)) : s.pins.rst = false ∧ s.nextEdge.NoReset m := by
  refine ⟨by simpa using h 0 (by omega), fun k hk => ?_⟩
  rw [State.pinsAt_nextEdge]
  exact h _ (by omega)

theorem State.NoReset.congr {s t : State} (h1 : t.stim = s.stim) (h2 : t.edge = s.edge) {m : Nat} (h : s.NoReset m) :
    t.NoReset m := fun k hk => by
  rw [State.pinsAt_congr h1 h2]
  exact h k hk

theorem State.NoReset.mono {s : State} {m n : Nat} (h : s.NoReset n) (hm : m ≤ n) : s.NoReset m :=
  fun k hk => h k (by omega)

/-- What SEGMENT's trimming leaves as it was, under both settings of TRIM (42_classify.md R140). -/
theorem State.trimTail_keeps (s : State) :
    s.trimTail.prev = s.prev ∧ s.trimTail.runlen = s.runlen ∧ s.trimTail.idx = s.idx ∧ s.trimTail.firstBit = s.firstBit ∧
    s.trimTail.sr = s.sr ∧ s.trimTail.st = s.st ∧ s.trimTail.status = s.status ∧ s.trimTail.rHint = s.rHint ∧
    s.trimTail.rHdec = s.rHdec ∧ s.trimTail.rTint = s.rTint ∧ s.trimTail.rTdec = s.rTdec ∧ s.trimTail.rChk = s.rChk ∧
    s.trimTail.params = s.params ∧ s.trimTail.stim = s.stim ∧ s.trimTail.edge = s.edge := by
  unfold State.trimTail
  split <;> simp

end Sys2Proof.Machine
end

