-- ==== Sys2Proof/Tests/Slice0.lean ====
section
/-! SUPPORT. Sys2Proof/Tests/Slice0.lean: the model's own tests. Expected values are the vectors of 95_test_vectors.md and the
rules' own examples; the witnesses show, for each obligation with hypotheses, a state and operands that meet them. -/

namespace Sys2Proof.Machine.Tests

/-- The small build of 95_test_vectors.md: T = 3, RUN_W = 4 (ALL1 = 15), CNT_W = 6. -/
def small : Params := { t := 3, runW := 4, cntW := 6, trim := .wholeRun, seqRule := .either }

/-- The smallest build of V-ACQ-4: T = 1, RUN_W = 2 (ALL1 = 3), CNT_W = 6. -/
def smallest : Params := { t := 1, runW := 2, cntW := 6, trim := .wholeRun, seqRule := .either }

/-- The default build with T_SAMPLES. -/
def tail : Params := { Params.default with trim := .tSamples }

/-- A state of a build with input words presented. -/
def given (p : Params) (ws : List InWord) : State := (State.resetOf p).present ws

/-- The next state, where there is one. -/
def after (o : Host.Outcome State Fault Refusal) : Option State :=
  match o with
  | .next s => some s
  | .fault _ | .refused _ => none

/-! ## Parameters (00_scope.md R5) -/

theorem test_legal_builds :
    Params.default.legal = true ∧ small.legal = true ∧ smallest.legal = true ∧ { small with t := 14 }.legal = true := by
  decide
theorem test_t_zero_refused : { small with t := 0 }.legal = false := by decide
theorem test_t_over_bound_refused : { small with t := 15 }.legal = false := by decide
theorem test_run_width_refused : { smallest with runW := 1, t := 0 }.legal = false ∧ { smallest with runW := 1 }.legal = false := by
  decide
theorem test_count_width_refused : { small with cntW := 5 }.legal = false := by decide
theorem test_every_operation_well_formed : Instr.all.all Instr.wf = true := by decide

/-! ## Decode: the rows of V-SEL, each from the state and input word it gives, its SEL written out bit by bit -/

/-- The selector word of a state with `st`, `runlen` and `prev` and one input word (T = 100). -/
def sel (st : SeqState) (runlen : Nat) (prev : Bool) (w : InWord) : Sel :=
  { given Params.default [w] with st := st, runlen := runlen, prev := prev }.selector

theorem test_vsel_control :
    sel .idle 0 false 0b000#3 = 0b0_000_0_1_1_0#8 ∧ decode 0b0_000_0_1_1_0#8 = some .wait ∧
    sel .idle 0 false 0b010#3 = 0b0_000_1_1_1_0#8 ∧ decode 0b0_000_1_1_1_0#8 = some .start ∧
    sel .idle 0 false 0b011#3 = 0b0_000_1_1_0_0#8 ∧ decode 0b0_000_1_1_0_0#8 = some .start ∧
    sel .done 101 true 0b000#3 = 0b0_100_0_0_0_0#8 ∧ decode 0b0_100_0_0_0_0#8 = some .wait ∧
    sel .done 101 true 0b001#3 = 0b0_100_0_0_1_0#8 ∧ decode 0b0_100_0_0_1_0#8 = some .wait ∧
    sel .done 101 true 0b010#3 = 0b0_100_1_0_0_0#8 ∧ decode 0b0_100_1_0_0_0#8 = some .start := by decide

theorem test_vsel_acquire :
    sel .acquire 0 false 0b001#3 = 0b0_001_0_1_0_0#8 ∧ decode 0b0_001_0_1_0_0#8 = some .sampleFirst ∧
    sel .acquire 8 true 0b000#3 = 0b0_001_0_0_0_0#8 ∧ decode 0b0_001_0_0_0_0#8 = some .sampleChange ∧
    sel .acquire 100 true 0b000#3 = 0b0_001_0_0_0_1#8 ∧ decode 0b0_001_0_0_0_1#8 = some .sampleChange ∧
    sel .acquire 4 false 0b000#3 = 0b0_001_0_0_1_0#8 ∧ decode 0b0_001_0_0_1_0#8 = some .sampleExtend ∧
    sel .acquire 100 true 0b001#3 = 0b0_001_0_0_1_1#8 ∧ decode 0b0_001_0_0_1_1#8 = some .sampleStop := by decide

theorem test_vsel_reset_and_decode_states :
    sel .acquire 7 true 0b100#3 = 0b1_001_0_0_0_0#8 ∧ decode 0b1_001_0_0_0_0#8 = some .reset ∧
    sel .acquire 7 true 0b111#3 = 0b1_001_1_0_1_0#8 ∧ decode 0b1_001_1_0_1_0#8 = some .reset ∧
    sel .segment 101 true 0b000#3 = 0b0_010_0_0_0_0#8 ∧ decode 0b0_010_0_0_0_0#8 = some .segment ∧
    sel .classify 101 false 0b010#3 = 0b0_011_1_0_1_0#8 ∧ decode 0b0_011_1_0_1_0#8 = some .classify ∧
    sel .validate 101 true 0b010#3 = 0b0_101_1_0_0_0#8 ∧ decode 0b0_101_1_0_0_0#8 = some .validate ∧
    sel .illegal7 0 false 0b000#3 = 0b0_111_0_1_1_0#8 ∧ decode 0b0_111_0_1_1_0#8 = some .illegal ∧
    sel .illegal6 5 true 0b011#3 = 0b0_110_1_0_1_0#8 ∧ decode 0b0_110_1_0_1_0#8 = some .illegal := by decide

/-- "The check was made by enumerating all 256 words against the table" (30_encoding.md R72): one row each. -/
theorem test_each_word_one_row : ∀ w : Sel, (Instr.all.filter (·.matchesSel w)).length = 1 := by decide

theorem test_not_a_selector_word :
    decodeBits 16 0 = .error (.notEightBits 16) ∧ decodeBits 8 256 = .error (.wordTooWide 256) := by decide

/-- The first step of every selector word laid into the reset state runs the word's operation to a next state. -/
theorem test_fetch_word_runs : ∀ w : Sel,
    decode (State.reset.withFetchWord 8 w.toNat).selector = decodeTableWord 8 w.toNat ∧
      (after (step (State.reset.withFetchWord 8 w.toNat))).isSome = true := by decide +kernel

/-! ## Control operations: V-CTL -/

/-- A state in the middle of a read. -/
def midRead : State :=
  { given Params.default [0b100#3] with
    st := .acquire, runlen := 7, n := 3, mn := 4, mx := 9, anyRun := true, hrbuf := [(0, 4), (1, 9), (2, 5)] }

/-- A completed read: status OK, bytes 0x32, 0x00, 0x19, 0x05, 0x50. -/
def doneOk (ws : List InWord) : State :=
  { given Params.default ws with
    st := .done, runlen := 101, prev := true, anyRun := true, n := 41, mn := 3, mx := 8, idx := 40#6, firstBit := true,
    sr := 0x3200190550#40, rHint := 0x32#8, rTint := 0x19#8, rTdec := 0x05#8, rChk := 0x50#8 }

/-- V-CTL row 1. -/
theorem test_reset_from_acquire :
    (after (step midRead)).map (fun t => (t.st, t.runlen, t.n, t.mn, t.mx)) = some (.idle, 0, 0, 65535, 0) ∧
    (after (step midRead)).map (·.hrbuf) = some [(0, 4), (1, 9), (2, 5)] := by decide
/-- V-CTL row 7: `rst` has priority over ILLEGAL. -/
theorem test_reset_from_illegal :
    (after (step { given small [0b110#3] with st := .illegal6, runlen := 9 })).map (fun t => (t.st, t.runlen, t.mn)) =
      some (.idle, 0, 15) := by decide
/-- V-CTL row 2. -/
theorem test_wait_holds_reading : (after (step (doneOk [0b000#3]))).map (·.result) = some 0x83200190550#44 := by decide
/-- V-CTL row 3. -/
theorem test_start_from_done : (after (step (doneOk [0b010#3]))).map (fun t => (t.result, t.st, t.n, t.mn, t.sr)) =
    some (0x40000000000#44, .acquire, 0, 65535, 0#40) := by decide
/-- V-CTL row 4: no sample is taken at the START edge. -/
theorem test_start_takes_no_sample :
    (after (step (given Params.default [0b011#3]))).map (fun t => (t.st, t.prev, t.runlen)) = some (.acquire, false, 0) := by
  decide
/-- V-CTL row 6. -/
theorem test_illegal_to_idle :
    (after (step { given small [0b000#3] with st := .illegal7, runlen := 9 })).map (fun t => (t.st, t.runlen)) =
      some (.idle, 9) := by decide

/-! ## Acquisition: V-ACQ and the rules' examples -/

/-- A read in ACQUIRE with an open run. -/
def openRun (p : Params) (prev : Bool) (runlen : Nat) (ws : List InWord) : State :=
  { given p ws with st := .acquire, prev := prev, runlen := runlen }

/-- 41_acquire.md R122, example. -/
theorem test_sample_first : (after (step (openRun small false 0 [0b001#3]))).map (fun t => (t.st, t.prev, t.runlen)) =
    some (.acquire, true, 1) := by decide
/-- 41_acquire.md R123, example. -/
theorem test_sample_change :
    (after (step (openRun Params.default true 8 [0b000#3]))).map (fun t => (t.hrbuf, t.n, t.mn, t.mx)) =
      some ([(0, 8)], 1, 8, 8) ∧
    (after (step (openRun Params.default true 8 [0b000#3]))).map (fun t => (t.anyRun, t.prev, t.runlen)) =
      some (true, false, 1) := by decide
/-- V-ACQ-3, edge 5: a change after exactly T samples closes a run of T. -/
theorem test_sample_change_after_t :
    (after (step (openRun small true 3 [0b000#3]))).map (fun t => (t.st, t.hrbuf, t.mn, t.runlen)) =
      some (.acquire, [(0, 3)], 3, 1) := by decide
/-- 41_acquire.md R124, example. -/
theorem test_sample_extend : (after (step (openRun Params.default false 4 [0b000#3]))).map (·.runlen) = some 5 := by decide
/-- 41_acquire.md R125, example. -/
theorem test_sample_stop :
    (after (step (openRun Params.default true 100 [0b001#3]))).map (fun t => (t.runlen, t.st)) = some (101, .segment) := by
  decide
/-- V-ACQ-4: with T = 1 the second equal sample stops. -/
theorem test_sample_stop_smallest :
    (after (step (openRun smallest false 1 [0b000#3]))).map (fun t => (t.runlen, t.st)) = some (2, .segment) := by decide

/-- The state of V-ACQ-5 before `close_run(1, 9)`. -/
def beforeClose (n : Nat) : State :=
  { State.resetOf small with n := n, mn := 3, mx := 8, anyRun := true }

/-- V-ACQ-5, the HRBUF boundary. -/
theorem test_close_run_boundary :
    ((beforeClose 40).closeRun true 9).hrbuf = [(40, 9)] ∧ ((beforeClose 40).closeRun true 9).n = 41 ∧
    ((beforeClose 41).closeRun true 9).hrbuf = [] ∧ ((beforeClose 41).closeRun true 9).n = 42 ∧
    ((beforeClose 41).closeRun true 9).mn = 3 ∧ ((beforeClose 41).closeRun true 9).mx = 9 := by decide
/-- V-ACQ-5, saturation. -/
theorem test_close_run_saturates :
    ((beforeClose 62).closeRun true 9).n = 63 ∧ ((beforeClose 63).closeRun true 9).n = 63 ∧
    ((beforeClose 63).closeRun true 9).mx = 9 := by decide

/-! ## SEGMENT, CLASSIFY and VALIDATE: V-SEG, V-CLS, V-VAL -/

/-- The state before a row of V-SEG: runlen = T + 1 = 101. -/
def beforeSegment (p : Params) (prev anyRun : Bool) (n mn mx : Nat) : State :=
  { given p [0b000#3] with st := .segment, runlen := 101, prev := prev, anyRun := anyRun, n := n, mn := mn, mx := mx }

/-- V-SEG rows 1, 2 and 3. -/
theorem test_segment_whole_run :
    (after (step (beforeSegment Params.default true false 0 65535 0))).map (fun t => (t.st, t.status, t.result)) =
      some (.done, .noDataError, 0xA0000000000#44) ∧
    (after (step (beforeSegment Params.default false true 0 65535 0))).map (fun t => (t.st, t.firstBit)) =
      some (.validate, false) ∧
    (after (step (beforeSegment Params.default true true 41 3 8))).map (fun t => (t.st, t.idx, t.n)) =
      some (.classify, 0#6, 41) := by decide
/-- V-SEG rows 4, 5, 6 and 7. -/
theorem test_segment_t_samples :
    (after (step (beforeSegment tail true false 0 65535 0))).map (fun t => (t.st, t.hrbuf, t.n, t.mn)) =
      some (.classify, [(0, 1)], 1, 1) ∧
    (after (step (beforeSegment tail false false 0 65535 0))).map (fun t => (t.st, t.anyRun, t.n, t.firstBit)) =
      some (.validate, true, 0, false) ∧
    (after (step (beforeSegment tail true true 41 3 8))).map (fun t => (t.hrbuf, t.n, t.mn, t.mx)) =
      some ([], 42, 1, 8) ∧
    (after (step (beforeSegment tail false true 41 3 8))).map (fun t => (t.st, t.n, t.mn, t.mx)) =
      some (.classify, 41, 3, 8) := by decide

/-- The state before a step vector of V-CLS, with one entry of HRBUF. -/
def beforeClassify (idx n mn mx len : Nat) (sr : Frame) : State :=
  { given Params.default [0b000#3] with
    st := .classify, idx := BitVec.ofNat 6 idx, n := n, mn := mn, mx := mx, anyRun := true, hrbuf := [(idx, len)], sr := sr }

/-- The registers a step vector of V-CLS shows after the step. -/
def afterClassify (s : State) : Option (SeqState × Nat × Bool × Frame) :=
  (after (step s)).map fun t => (t.st, t.idx.toNat, t.firstBit, t.sr)

/-- V-CLS step vectors 1, 2 and 3. -/
theorem test_classify_steps :
    afterClassify (beforeClassify 0 41 3 8 8 0#40) = some (.classify, 1, true, 0#40) ∧
    afterClassify (beforeClassify 1 41 3 8 8 0#40) = some (.classify, 2, false, 1#40) ∧
    afterClassify (beforeClassify 40 41 3 8 3 0x190028AA80#40) = some (.validate, 40, false, 0x3200515500#40) := by decide
/-- V-CLS step vectors 4, 5 and 6. -/
theorem test_classify_last :
    afterClassify (beforeClassify 40 45 3 8 8 0#40) = some (.validate, 40, false, 1#40) ∧
    afterClassify (beforeClassify 0 1 7 7 7 0#40) = some (.validate, 0, false, 0#40) ∧
    afterClassify (beforeClassify 2 3 2 9 9 1#40) = some (.validate, 2, false, 3#40) := by decide
/-- V-CLS, the table of `classify(len)`: rows with ties and rows next to the threshold. -/
theorem test_classify_table :
    classifyLen 2 4 3 = false ∧ classifyLen 2 4 4 = true ∧ classifyLen 2 5 3 = false ∧ classifyLen 2 5 4 = true ∧
    classifyLen 5 5 5 = false ∧ classifyLen 1 100 50 = false ∧ classifyLen 1 100 51 = true ∧
    classifyLen 10 30 20 = false ∧ classifyLen 10 30 21 = true := by decide
/-- 42_classify.md R146. -/
theorem test_worked_classification :
    classifiedBits Params.default [10, 10, 30, 30, 10] = [false, false, true, true, false] := by decide
/-- 20_memory.md R53: an entry never written faults. -/
theorem test_classify_unwritten_faults :
    execClassify { beforeClassify 3 41 3 8 8 0#40 with hrbuf := [(2, 8), (4, 8)] } = .fault (.hrbufUnwritten 3) := by rfl

/-- The status and result of a row of V-VAL. -/
def validated (rule : SeqRule) (n : Nat) (firstBit : Bool) (sr : Frame) : Option (ReadStatus × ResultWord) :=
  (after (step { given { Params.default with seqRule := rule } [0b000#3] with
    st := .validate, anyRun := true, n := n, firstBit := firstBit, sr := sr })).map fun t => (t.status, t.result)

/-- V-VAL rows 1 to 4 and 9 under both settings. -/
theorem test_validate_rows :
    validated .either 41 true 0x3200190550#40 = some (.ok, 0x83200190550#44) ∧
    validated .both 41 true 0x320019054B#40 = some (.checksumError, 0x90000000000#44) ∧
    validated .either 41 false 0x3200190550#40 = some (.sequenceError, 0xB0000000000#44) ∧
    validated .both 41 false 0x3200190550#40 = some (.ok, 0x83200190550#44) ∧
    validated .either 41 false 0x320019054B#40 = some (.sequenceError, 0xB0000000000#44) ∧
    validated .both 41 false 0x320019054B#40 = some (.checksumError, 0x90000000000#44) ∧
    validated .either 42 true 0x3200190550#40 = some (.sequenceError, 0xB0000000000#44) ∧
    validated .both 42 true 0x3200190550#40 = some (.ok, 0x83200190550#44) := by decide
/-- V-VAL rows 5, 6, 7, 8 and 12. -/
theorem test_validate_partial_and_wrap :
    validated .both 39 true 0x0C80064154#40 = some (.checksumError, 0x90000000000#44) ∧
    validated .both 39 true 0#40 = some (.ok, 0x80000000000#44) ∧
    validated .both 39 false 0#40 = some (.sequenceError, 0xB0000000000#44) ∧
    validated .either 0 false 0#40 = some (.sequenceError, 0xB0000000000#44) ∧
    validated .either 41 true 0xFF01000000#40 = some (.ok, 0x8FF01000000#44) := by decide

/-! ## Outputs, the host's conversion, the stimulus language and the reference definitions -/

/-- V-HOST. -/
theorem test_host_conversion :
    (doneOk []).reading.bind Reading.humidity = some 50 ∧
    (doneOk []).reading.bind Reading.temperature = some (51 / 2) := by
  constructor <;> decide +kernel

/-- L1-2: the two trimmings of one trace and their HighRuns (T = 3 in place of 100). -/
theorem test_trimming :
    trimTrace small [false, false, true, true, true, false, true, true, true, true] =
      [false, false, true, true, true, false] ∧
    highRuns (trimTrace { small with trim := .tSamples }
      [false, false, true, true, true, false, true, true, true, true]) = [3, 1] := by decide

/-- P5's text and its 14 words (30_encoding.md R80 to R82). -/
theorem test_assemble_text :
    assembleText 3 "RST ; edge 0\nSTART\nS 0\nSTART\nS 1\nRST\n\nSTART\nRUN 1, 4\nNOP 1\nSTART\nS 0b0".toList =
      some [4#3, 2#3, 0#3, 2#3, 1#3, 4#3, 2#3, 1#3, 1#3, 1#3, 1#3, 0#3, 2#3, 0#3] := by decide
/-- P2's FRAME statement: its text, and the 388 words of its expansion; a handshake above T adds its samples
(388 - 8 + 101), and a count of 0 is no RUN (30_encoding.md R81). -/
theorem test_frame_statement :
    (assembleText 100 "FRAME 5, 3, 8, 8 : 0x32, 0x00, 0x19, 0x05, 0x50".toList).map List.length = some 388 ∧
    (assembleText 100 "FRAME 5, 3, 8, 101 : 0x32, 0x00, 0x19, 0x05, 0x50".toList).map List.length = some 481 ∧
    assembleText 100 "FRAME 5, 3, 8, 0 : 0x32, 0x00, 0x19, 0x05, 0x50".toList = none := by decide +kernel
/-- BIT's expansion uses one of its two high counts (30_encoding.md R81); a `b` that is no bit is refused (log 14). -/
theorem test_bit_statement :
    assembleText 3 "BIT 0, 2, 1, 0".toList = some [0#3, 0#3, 1#3] ∧
    assembleText 3 "BIT 1, 2, 1, 4".toList = some [0#3, 0#3, 1#3, 1#3, 1#3, 1#3] ∧
    assembleText 3 "BIT 1, 2, 1, 0".toList = none ∧ assembleText 3 "BIT 2, 2, 1, 4".toList = none := by decide
/-- Disassembly of the word with both bits set: `rst` has priority (30_encoding.md R82). -/
theorem test_disassemble_priority : disassemble 0b110#3 = .rst ∧ disassemble 0b001#3 = .sample true := by decide

/-- Past the listed stimulus the pins are the host's free word. -/
theorem test_free_input : State.reset.pins = Pins.ofWord (Config.freeInput 0) := rfl

/-! ## States with the invariant -/

/-- A read of V-ACQ-3 at its last CLASSIFY: HighRuns of 3 and 2. -/
def classifying (st : SeqState) (idx : BitVec 6) (firstBit : Bool) (ws : List InWord) : State :=
  { given { small with seqRule := .both } ws with
    st := st, runlen := 4, anyRun := true, n := 2, mn := 2, mx := 3, idx := idx, firstBit := firstBit,
    hrbuf := [(0, 3), (1, 2)] }

theorem classifying_buffered (st : SeqState) (idx : BitVec 6) (firstBit : Bool) (ws : List InWord) :
    ∀ i < (classifying st idx firstBit ws).k, ∃ len, (classifying st idx firstBit ws).hrbuf.read i = some len ∧
      (classifying st idx firstBit ws).mn ≤ len ∧ len ≤ (classifying st idx firstBit ws).mx := by
  intro i hi
  have hi : i < 2 := hi
  rcases i with _ | _ | i
  · exact ⟨3, rfl, (by decide : 2 ≤ 3), (by decide : 3 ≤ 3)⟩
  · exact ⟨2, rfl, (by decide : 2 ≤ 2), (by decide : 2 ≤ 3)⟩
  · omega

/-- In ACQUIRE, with an open high run of 2. -/
theorem inv_acquire : (openRun small true 2 [0b000#3]).Inv := by
  constructor
  case widths => exact ⟨by decide, by decide, by decide, by decide⟩
  case buffered => exact fun i hi => absurd hi (Nat.not_lt_zero i)
  case notDone => exact fun _ => ⟨rfl, rfl, rfl, rfl, rfl, rfl⟩
  case failed => exact fun h => nomatch h
  case okFrame => exact fun h => nomatch h
  all_goals decide

/-- In SEGMENT under T_SAMPLES, after a low line that never changed. -/
theorem inv_segment : (beforeSegment tail false false 0 65535 0).Inv := by
  constructor
  case widths => exact ⟨by decide, by decide, by decide, by decide⟩
  case buffered => exact fun i hi => absurd hi (Nat.not_lt_zero i)
  case notDone => exact fun _ => ⟨rfl, rfl, rfl, rfl, rfl, rfl⟩
  case failed => exact fun h => nomatch h
  case okFrame => exact fun h => nomatch h
  all_goals decide

/-- In CLASSIFY, at the second of two HighRuns. -/
theorem inv_classify : (classifying .classify 1#6 true [0b000#3]).Inv := by
  constructor
  case widths => exact ⟨by decide, by decide, by decide, by decide⟩
  case buffered => exact classifying_buffered _ _ _ _
  case notDone => exact fun _ => ⟨rfl, rfl, rfl, rfl, rfl, rfl⟩
  case failed => exact fun h => nomatch h
  case okFrame => exact fun h => nomatch h
  all_goals decide

/-- In DONE with the status OK. -/
theorem inv_done : (classifying .done 1#6 true [0b000#3]).Inv := by
  constructor
  case widths => exact ⟨by decide, by decide, by decide, by decide⟩
  case buffered => exact classifying_buffered _ _ _ _
  case notDone => exact fun h => absurd rfl h
  case failed => exact fun _ h => absurd rfl h
  case okFrame => exact fun _ _ => ⟨⟨rfl, rfl, rfl, rfl, rfl⟩, by decide, by decide⟩
  all_goals decide

/-! ## Witnesses of the hypotheses: operations -/

theorem witness_StepRunsSelectedOperation :
    decode (openRun small true 2 [0b001#3]).selector = some .sampleExtend ∧
    (∃ t, exec .sampleExtend (openRun small true 2 [0b001#3]) = .next t) ∧
    decode { beforeClassify 3 41 3 8 8 0#40 with hrbuf := [] }.selector = some .classify ∧
    exec .classify { beforeClassify 3 41 3 8 8 0#40 with hrbuf := [] } = .fault (.hrbufUnwritten 3) :=
  ⟨by decide, ⟨_, rfl⟩, by decide, rfl⟩

theorem witness_FetchWordSelectsItsOperation : State.reset.params.legal = true ∧ 0 < 256 ∧ 255 < 256 := by decide

theorem witness_InputWordIsThePins :
    ([0b101#3, 0b010#3] : List InWord)[0]? = some 0b101#3 ∧ ([0b101#3, 0b010#3] : List InWord)[1]? = some 0b010#3 := by
  decide

theorem witness_ResetStateHasInvariant : smallest.legal = true ∧ { small with t := 14 }.legal = true := by decide

theorem witness_ResetOperation : 0x80#8 &&& 0x80#8 = 0x80#8 ∧ 0xFF#8 &&& 0x80#8 = 0x80#8 ∧ midRead.pins.rst = true := by
  decide

theorem witness_OutputsAfterReset : midRead.pins.rst = true ∧ (doneOk [0b111#3]).pins.rst = true := by decide

theorem witness_WaitOperation :
    0x00#8 &&& 0xB8#8 = 0x00#8 ∧ 0x47#8 &&& 0xB8#8 = 0x00#8 ∧
    ((given small [0b001#3]).pins.rst = false ∧ (given small [0b001#3]).pins.start = false ∧
      (given small [0b001#3]).st = .idle) ∧
    (doneOk [0b000#3]).pins.rst = false ∧ (doneOk [0b000#3]).pins.start = false ∧ (doneOk [0b000#3]).st = .done := by
  decide

theorem witness_StartOperation :
    0x08#8 &&& 0xB8#8 = 0x08#8 ∧ 0x4F#8 &&& 0xB8#8 = 0x08#8 ∧
    ((given small [0b011#3]).pins.rst = false ∧ (given small [0b011#3]).pins.start = true ∧
      (given small [0b011#3]).st = .idle) ∧
    (doneOk [0b010#3]).pins.rst = false ∧ (doneOk [0b010#3]).pins.start = true ∧ (doneOk [0b010#3]).st = .done := by
  decide

theorem witness_IllegalOperation :
    0x60#8 &&& 0xE0#8 = 0x60#8 ∧ 0x7F#8 &&& 0xE0#8 = 0x60#8 ∧
    { given small [0b011#3] with st := .illegal6 }.pins.rst = false ∧
    { given small [0b000#3] with st := .illegal7 }.pins.rst = false := by decide

theorem witness_SampleFirstOperation :
    0x14#8 &&& 0xF4#8 = 0x14#8 ∧ 0x1F#8 &&& 0xF4#8 = 0x14#8 ∧ (openRun smallest false 0 []).params.legal = true := by
  decide

/-- A high run of T samples open, at the HRBUF boundary and at saturation. -/
def fullRun (n : Nat) (prev : Bool) : State :=
  { openRun small prev 3 [0b000#3] with n := n, mn := 3, mx := 3, anyRun := true }

theorem fullRun_widths {n : Nat} (h : n < 64) (prev : Bool) : (fullRun n prev).Widths :=
  ⟨(by decide : 3 < 16), h, (by decide : 3 < 16), (by decide : 3 < 16)⟩

theorem witness_SampleChangeOperation :
    0x10#8 &&& 0xF6#8 = 0x10#8 ∧ 0x19#8 &&& 0xF6#8 = 0x10#8 ∧
    ((fullRun 40 true).params.legal = true ∧ (fullRun 40 true).Widths ∧ (fullRun 40 true).prev = true) ∧
    ((fullRun 63 true).params.legal = true ∧ (fullRun 63 true).Widths ∧ (fullRun 63 true).prev = true) ∧
    (fullRun 0 false).params.legal = true ∧ (fullRun 0 false).Widths ∧ (fullRun 0 false).prev = false :=
  ⟨by decide, by decide, ⟨by decide, fullRun_widths (by decide) _, rfl⟩,
    ⟨by decide, fullRun_widths (by decide) _, rfl⟩, by decide, fullRun_widths (by decide) _, rfl⟩

theorem inv_acquire_smallest : (openRun smallest true 1 [0b001#3]).Inv := by
  constructor
  case widths => exact ⟨by decide, by decide, by decide, by decide⟩
  case buffered => exact fun i hi => absurd hi (Nat.not_lt_zero i)
  case notDone => exact fun _ => ⟨rfl, rfl, rfl, rfl, rfl, rfl⟩
  case failed => exact fun h => nomatch h
  case okFrame => exact fun h => nomatch h
  all_goals decide

theorem witness_SampleExtendOperation :
    0x12#8 &&& 0xF7#8 = 0x12#8 ∧ 0x1A#8 &&& 0xF7#8 = 0x12#8 ∧
    ((openRun small true 2 []).params.legal = true ∧ (openRun small true 2 []).runlen < small.t) ∧
    (openRun smallest true 1 [0b001#3]).Inv ∧ (openRun smallest true 1 [0b001#3]).params.t = 1 :=
  ⟨by decide, by decide, by decide, inv_acquire_smallest, rfl⟩

theorem witness_SampleStopOperation :
    0x13#8 &&& 0xF7#8 = 0x13#8 ∧ 0x1B#8 &&& 0xF7#8 = 0x13#8 ∧ (openRun small true 3 []).params.legal = true ∧
    (openRun small true 3 []).runlen = (openRun small true 3 []).params.t := by decide

theorem witness_SampleOperationsFrame :
    (∃ t, exec .sampleFirst (openRun small false 0 [0b001#3]) = .next t) ∧
    ((∃ t, exec .sampleChange (fullRun 40 true) = .next t) ∧ ∃ t, exec .sampleChange (fullRun 40 false) = .next t) ∧
    (∃ t, exec .sampleExtend (openRun small true 2 [0b001#3]) = .next t) ∧
    ∃ t, exec .sampleStop (openRun small true 3 [0b001#3]) = .next t :=
  ⟨⟨_, rfl⟩, ⟨⟨_, rfl⟩, _, rfl⟩, ⟨_, rfl⟩, _, rfl⟩

theorem witness_CloseRunAndClassify :
    (fullRun 41 true).params.legal = true ∧ (fullRun 41 true).Widths ∧ 15 < 2 ^ (fullRun 41 true).params.runW :=
  ⟨by decide, fullRun_widths (by decide) _, by decide⟩

theorem witness_SegmentOperation :
    0x20#8 &&& 0xF0#8 = 0x20#8 ∧ 0x2F#8 &&& 0xF0#8 = 0x20#8 ∧
    (∀ t, t = beforeSegment Params.default true false 0 65535 0 →
      t.params.legal = true ∧ t.runlen = t.params.t + 1 ∧ t.params.trim = .wholeRun ∧ t.anyRun = false) ∧
    (∀ t, t = beforeSegment Params.default false true 0 65535 0 →
      t.params.legal = true ∧ t.runlen = t.params.t + 1 ∧ t.params.trim = .wholeRun ∧ t.anyRun = true ∧ t.n = 0) ∧
    ∀ t, t = beforeSegment tail true false 0 65535 0 →
      t.params.legal = true ∧ t.runlen = t.params.t + 1 ∧ t.params.trim = .tSamples ∧
      (t.closeRun t.prev 1).anyRun = true ∧ (t.closeRun t.prev 1).n ≠ 0 := by
  refine ⟨by decide, by decide, ?_, ?_, ?_⟩ <;> (rintro t rfl; decide)

theorem witness_ClassifyOperation :
    0x30#8 &&& 0xF0#8 = 0x30#8 ∧ 0x3F#8 &&& 0xF0#8 = 0x30#8 ∧
    (∀ t, t = beforeClassify 0 41 3 8 8 0#40 → t.idx.toNat < 41 ∧ t.hrbuf.read t.idx.toNat = some 8 ∧
      absDiff 8 t.mx < absDiff 8 t.mn ∧ t.idx.toNat = 0 ∧ t.idx.toNat + 1 ≠ min t.n 41) ∧
    (∀ t, t = beforeClassify 0 1 7 7 7 0#40 → t.idx.toNat < 41 ∧ t.hrbuf.read t.idx.toNat = some 7 ∧
      ¬ absDiff 7 t.mx < absDiff 7 t.mn ∧ t.idx.toNat = 0 ∧ t.idx.toNat + 1 = min t.n 41) ∧
    ∀ t, t = beforeClassify 40 45 3 8 3 0#40 → t.idx.toNat < 41 ∧ t.hrbuf.read t.idx.toNat = some 3 ∧
      ¬ absDiff 3 t.mx < absDiff 3 t.mn ∧ t.idx.toNat ≠ 0 ∧ t.idx.toNat + 1 = min t.n 41 := by
  refine ⟨by decide, by decide, ?_, ?_, ?_⟩ <;> (rintro t rfl; decide)

theorem witness_ClassifyStopsOnlyWithoutEntry :
    (∀ t, t = beforeClassify 40 41 3 8 8 0#40 → { t with hrbuf := [] }.idx.toNat < 41 ∧
      { t with hrbuf := [] }.hrbuf.read t.idx.toNat = none) ∧
    41 ≤ (beforeClassify 41 41 3 8 8 0#40).idx.toNat ∧
    ∀ t, exec .classify (beforeClassify 41 41 3 8 8 0#40) ≠ .next t := by
  refine ⟨?_, by decide, fun t h => ?_⟩
  · rintro t rfl
    decide
  · have hf : exec .classify (beforeClassify 41 41 3 8 8 0#40) = .fault (.hrbufIndexOutOfRange 41) := rfl
    rw [hf] at h
    contradiction

theorem witness_ClassifyThreshold : 2 ≤ 3 ∧ 3 ≤ 5 ∧ 7 ≤ 7 := by decide

theorem witness_ClassificationIsSelfCalibrating :
    0 < 3 ∧ 0 < 2 ∧ [9, 15, 9].map (2 * ·) = [6, 10, 6].map (3 * ·) := by decide

/-- The state before a row of V-VAL. -/
def beforeValidate (rule : SeqRule) (n : Nat) (firstBit : Bool) (sr : Frame) : State :=
  { given { Params.default with seqRule := rule } [0b000#3] with
    st := .validate, anyRun := true, n := n, firstBit := firstBit, sr := sr }

theorem witness_ValidateOperation :
    0x50#8 &&& 0xF0#8 = 0x50#8 ∧ 0x5F#8 &&& 0xF0#8 = 0x50#8 ∧
    (∀ t, t = beforeValidate .either 42 true 0x3200190550#40 →
      t.params.seqRule = .either ∧ ¬ (t.n = 41 ∧ t.firstBit = true)) ∧
    (∀ t, t = beforeValidate .both 42 true 0x3200190550#40 →
      t.params.seqRule = .both ∧ ¬ (t.n ≠ 41 ∧ t.firstBit ≠ true) ∧
      0x50 = ((t.sr.extractLsb' 32 8).toNat + (t.sr.extractLsb' 24 8).toNat + (t.sr.extractLsb' 16 8).toNat +
        (t.sr.extractLsb' 8 8).toNat) % 256 ∧ 0x50 = (t.sr.extractLsb' 0 8).toNat) ∧
    ∀ t, t = beforeValidate .either 41 true 0x320019054B#40 →
      t.params.seqRule = .either ∧ (t.n = 41 ∧ t.firstBit = true) ∧
      0x50 = ((t.sr.extractLsb' 32 8).toNat + (t.sr.extractLsb' 24 8).toNat + (t.sr.extractLsb' 16 8).toNat +
        (t.sr.extractLsb' 8 8).toNat) % 256 ∧ 0x50 ≠ (t.sr.extractLsb' 0 8).toNat := by
  refine ⟨by decide, by decide, ?_, ?_, ?_⟩ <;> (rintro t rfl; decide)

theorem witness_FinishWritesTheOutcome : ReadStatus.ok = .ok ∧ ReadStatus.noDataError ≠ .ok := by decide

theorem witness_OutcomeTable :
    ((beforeValidate .either 41 true 0#40).params.seqRule = .either ∧
      (beforeValidate .both 39 false 0#40).params.seqRule = .both) ∧
    (∃ t, step (beforeValidate .both 41 false 0#40) = .next t ∧ (beforeValidate .both 41 false 0#40).st ≠ .done ∧
      t.st = .done) ∧
    ∃ t, step (beforeSegment Params.default true false 0 65535 0) = .next t ∧ t.st = .done :=
  ⟨by decide, ⟨_, rfl, by decide, rfl⟩, _, rfl, rfl⟩

theorem witness_ChecksumRoundTripAndMutation :
    (beforeValidate .either 41 true 0#40).n = 41 ∧ (beforeValidate .either 41 true 0#40).firstBit = true ∧
    (0x00#8).toNat = ((0xFF#8).toNat + (0x01#8).toNat + (0x00#8).toNat + (0x00#8).toNat) % 256 ∧
    (0xFC#8).toNat = ((0xFF#8).toNat + (0xFF#8).toNat + (0xFF#8).toNat + (0xFF#8).toNat) % 256 ∧ 0 < 40 ∧ 39 < 40 := by
  decide

theorem witness_FrameBitOrder : (frameBits 0x32#8 0x00#8 0x19#8 0x05#8 0x50#8).length = 40 ∧ 0 < 40 ∧ 39 < 40 := by
  decide

theorem witness_OutputPinsOfTheState :
    (openRun small true 2 [0b000#3]).Inv ∧ (openRun small true 2 [0b000#3]).outputs.done = false :=
  ⟨inv_acquire, rfl⟩

theorem witness_ResultWordFields :
    (classifying .done 1#6 true [0b000#3]).Inv ∧ (classifying .done 1#6 true [0b000#3]).st = .done ∧
    (classifying .done 1#6 true [0b000#3]).status = .ok :=
  ⟨inv_done, rfl, rfl⟩

/-! ## Witnesses of the hypotheses: frames -/

theorem witness_OtherOperationsKeepHrbuf :
    (∃ t, exec .classify (classifying .classify 1#6 true [0b000#3]) = .next t) ∧
    (∃ t, exec .validate (classifying .validate 1#6 true [0b000#3]) = .next t) ∧
    ∃ t, exec .sampleStop (fullRun 40 true) = .next t := ⟨⟨_, rfl⟩, ⟨_, rfl⟩, _, rfl⟩

theorem witness_CloseRunStoresOneEntry :
    (∀ s, s = fullRun 40 true → s.params.legal = true ∧ s.runlen < 2 ^ s.params.runW ∧
      (∃ t, exec .sampleChange s = .next t) ∧ s.closeRunIndex s.prev = some 40) ∧
    (∀ s, s = fullRun 41 true → s.params.legal = true ∧ s.runlen < 2 ^ s.params.runW ∧
      (∃ t, exec .sampleChange s = .next t) ∧ s.closeRunIndex s.prev ≠ some 41) ∧
    (∀ s, s = beforeSegment tail true false 0 65535 0 → s.params.legal = true ∧ s.runlen = s.params.t + 1 ∧
      s.params.trim = .tSamples ∧ (∃ t, exec .segment s = .next t) ∧ s.closeRunIndex s.prev = some 0) ∧
    ∀ s, s = beforeSegment Params.default true true 41 3 8 → s.params.legal = true ∧ s.params.trim = .wholeRun ∧
      ∃ t, exec .segment s = .next t := by
  refine ⟨?_, ?_, ?_, ?_⟩ <;> rintro s rfl
  · exact ⟨by decide, by decide, ⟨_, rfl⟩, by decide⟩
  · exact ⟨by decide, by decide, ⟨_, rfl⟩, by decide⟩
  · exact ⟨by decide, by decide, by decide, ⟨_, rfl⟩, by decide⟩
  · exact ⟨by decide, by decide, _, rfl⟩

theorem witness_DecodeOperationsFrame :
    (∃ t, exec .segment (beforeSegment Params.default true false 0 65535 0) = .next t ∧ t.st = .done) ∧
    (∃ t, exec .segment (beforeSegment Params.default false true 0 65535 0) = .next t ∧ t.st = .validate) ∧
    (∃ t, exec .segment (beforeSegment tail true false 0 65535 0) = .next t ∧ t.st = .classify) ∧
    (∃ t, exec .classify (beforeClassify 0 41 3 8 8 0#40) = .next t ∧
      (beforeClassify 0 41 3 8 8 0#40).idx.toNat = 0) ∧
    (∃ t, exec .classify (beforeClassify 40 41 3 8 3 0#40) = .next t ∧
      (beforeClassify 40 41 3 8 3 0#40).idx.toNat ≠ 0) ∧
    ∃ t, exec .validate (beforeValidate .either 41 true 0#40) = .next t :=
  ⟨⟨_, rfl, rfl⟩, ⟨_, rfl, rfl⟩, ⟨_, rfl, rfl⟩, ⟨_, rfl, rfl⟩, ⟨_, rfl, by decide⟩, _, rfl⟩

theorem witness_OnlyOutcomesWriteResults :
    (∃ t, exec .validate (beforeValidate .either 41 true 0x3200190550#40) = .next t) ∧
    (∃ t, exec .segment (beforeSegment Params.default true false 0 65535 0) = .next t) ∧
    ∃ t, exec .wait (doneOk []) = .next t := ⟨⟨_, rfl⟩, ⟨_, rfl⟩, _, rfl⟩

theorem witness_OperationsKeepParameters :
    (∃ t, exec .start (doneOk [0b010#3]) = .next t) ∧ ∃ t, step (doneOk [0b010#3]) = .next t :=
  ⟨⟨_, rfl⟩, _, rfl⟩

/-! ## Witnesses of the hypotheses: the whole machine -/

theorem witness_TransitionTable :
    (∃ t, step midRead = .next t ∧ midRead.pins.rst = true) ∧
    (∀ s, s = doneOk [0b001#3] → (∃ t, step s = .next t) ∧ s.pins.rst = false ∧ s.st = .done ∧ s.pins.start = false) ∧
    (∀ s, s = given small [0b010#3] → (∃ t, step s = .next t) ∧ s.pins.rst = false ∧ s.st = .idle ∧
      s.pins.start = true) ∧
    (∀ s, s = openRun small true 2 [0b001#3] → (∃ t, step s = .next t) ∧ s.pins.rst = false ∧ s.st = .acquire ∧
      ¬ (s.runlen ≠ 0 ∧ s.pins.line = s.prev ∧ s.runlen = s.params.t)) ∧
    (∀ s, s = openRun small true 3 [0b001#3] → (∃ t, step s = .next t) ∧ s.pins.rst = false ∧ s.st = .acquire ∧
      s.runlen ≠ 0 ∧ s.pins.line = s.prev ∧ s.runlen = s.params.t) ∧
    (∀ s, s = beforeSegment Params.default true false 0 65535 0 → (∃ t, step s = .next t) ∧ s.pins.rst = false ∧
      s.st = .segment ∧ s.trimTail.anyRun = false) ∧
    (∀ s, s = beforeSegment tail false false 0 65535 0 → (∃ t, step s = .next t ∧ t.n = 0) ∧ s.pins.rst = false ∧
      s.st = .segment ∧ s.trimTail.anyRun = true) ∧
    (∀ s, s = beforeSegment tail true false 0 65535 0 → (∃ t, step s = .next t ∧ t.n ≠ 0) ∧ s.pins.rst = false ∧
      s.st = .segment ∧ s.trimTail.anyRun = true) ∧
    (∀ s, s = beforeClassify 39 41 3 8 8 0#40 → (∃ t, step s = .next t) ∧ s.pins.rst = false ∧ s.st = .classify ∧
      s.idx.toNat + 1 ≠ min s.n 41) ∧
    (∀ s, s = beforeClassify 40 63 3 8 8 0#40 → (∃ t, step s = .next t) ∧ s.pins.rst = false ∧ s.st = .classify ∧
      s.idx.toNat + 1 = min s.n 41) ∧
    (∀ s, s = beforeValidate .both 41 true 0#40 → (∃ t, step s = .next t) ∧ s.pins.rst = false ∧ s.st = .validate) ∧
    ∀ s, s = { given small [0b000#3] with st := .illegal7 } → (∃ t, step s = .next t) ∧ s.pins.rst = false ∧
      s.st = .illegal7 := by
  refine ⟨⟨_, rfl, by decide⟩, ?_, ?_, ?_, ?_, ?_, ?_, ?_, ?_, ?_, ?_, ?_⟩ <;> rintro s rfl
  case refine_6 => exact ⟨⟨_, rfl, by decide⟩, by decide, by decide, by decide⟩
  case refine_7 => exact ⟨⟨_, rfl, by decide⟩, by decide, by decide, by decide⟩
  all_goals exact ⟨⟨_, rfl⟩, by decide⟩

theorem witness_DoneEnteredAndLeft :
    (∃ t, step (doneOk [0b010#3]) = .next t ∧ (doneOk [0b010#3]).st = .done ∧ t.st ≠ .done) ∧
    (∃ t, step (doneOk [0b110#3]) = .next t ∧ (doneOk [0b110#3]).st = .done ∧ t.st ≠ .done) ∧
    ∃ t, step (beforeValidate .both 41 true 0#40) = .next t ∧ (beforeValidate .both 41 true 0#40).st ≠ .done ∧
      t.st = .done :=
  ⟨⟨_, rfl, rfl, by decide⟩, ⟨_, rfl, rfl, by decide⟩, _, rfl, by decide, rfl⟩

theorem witness_StartIgnoredWhileBusy :
    (openRun small true 2 []).busy = true ∧ (beforeSegment tail true false 0 65535 0).busy = true ∧
    (beforeClassify 3 41 3 8 8 0#40).busy = true ∧ (beforeValidate .both 41 true 0#40).busy = true := by decide

theorem witness_LineIgnoredOutsideAcquire :
    (doneOk []).st ≠ .acquire ∧ (beforeClassify 3 41 3 8 8 0#40).st ≠ .acquire ∧ State.reset.st ≠ .acquire := by decide

theorem witness_StepKeepsHrbufForm :
    (classifying .acquire 0#6 true [0b000#3]).hrbuf.wf ∧
    ∃ t, step (classifying .acquire 0#6 true [0b000#3]) = .next t := ⟨by decide, _, rfl⟩

theorem witness_StepKeepsInvariant :
    ((openRun small true 2 [0b000#3]).Inv ∧ ∃ t, step (openRun small true 2 [0b000#3]) = .next t) ∧
    ((classifying .classify 1#6 true [0b000#3]).Inv ∧
      ∃ t, step (classifying .classify 1#6 true [0b000#3]) = .next t) :=
  ⟨⟨inv_acquire, _, rfl⟩, inv_classify, _, rfl⟩

theorem witness_InvariantStepsNeverStop :
    (classifying .classify 1#6 true [0b000#3]).Inv ∧ (classifying .done 1#6 true [0b000#3]).Inv :=
  ⟨inv_classify, inv_done⟩

theorem witness_DoneIsQuiescent :
    (doneOk [0b000#3, 0b001#3]).st = .done ∧ (doneOk [0b000#3, 0b001#3]).NoReset 2 ∧
    (doneOk [0b000#3, 0b001#3]).NoStart 2 := by
  refine ⟨rfl, ?_, ?_⟩
  · unfold State.NoReset
    decide
  · unfold State.NoStart
    decide

/-! ## Witnesses of the hypotheses: reads -/

/-- A read about to take its first sample, with input words presented. -/
def fresh (p : Params) (ws : List InWord) : State := { given p ws with st := .acquire }

theorem fresh_freshRead {p : Params} (h : p.legal = true) (ws : List InWord) : (fresh p ws).FreshRead :=
  ⟨h, rfl, rfl, rfl, rfl, rfl, rfl, rfl, rfl, rfl⟩

/-- The samples of V-ACQ-3 and the edges after them. -/
def acq3 : List InWord := [1#3, 1#3, 1#3, 0#3, 1#3, 1#3, 0#3, 0#3, 0#3, 0#3, 0#3, 0#3, 0#3, 0#3]

/-- The samples of V-ACQ-1: a line that never changes. -/
def acq1 : List InWord := [1#3, 1#3, 1#3, 1#3, 0#3, 0#3, 0#3]

/-- V-ACQ-3's trace is whole after 10 samples, and V-ACQ-1's after 4. -/
theorem test_whole_traces :
    wholeTrace 3 ((fresh small acq3).samples 10) = true ∧ wholeTrace 3 ((fresh small acq1).samples 4) = true ∧
    wholeTrace 3 ((fresh small acq3).samples 9) = false := by decide

theorem acq3_noReset : (fresh small acq3).NoReset 14 := by
  unfold State.NoReset
  decide

theorem acq1_noReset : (fresh small acq1).NoReset 7 := by
  unfold State.NoReset
  decide

theorem witness_UnsettledLineStaysInAcquire :
    (fresh small acq3).FreshRead ∧ (fresh small acq3).NoReset 9 ∧
    acquireTrace (fresh small acq3).params.t ((fresh small acq3).samples 9) = none :=
  ⟨fresh_freshRead (by decide) _, acq3_noReset.mono (by decide), by decide⟩

theorem witness_OnePassEquivalence :
    ((fresh small acq3).FreshRead ∧ (fresh small acq3).NoReset 11 ∧
      wholeTrace (fresh small acq3).params.t ((fresh small acq3).samples 10) = true ∧
      [3, 2] = highRuns (trimTrace (fresh small acq3).params ((fresh small acq3).samples 10))) ∧
    (fresh small acq1).FreshRead ∧ (fresh small acq1).NoReset 5 ∧
      wholeTrace (fresh small acq1).params.t ((fresh small acq1).samples 4) = true ∧
      [] = highRuns (trimTrace (fresh small acq1).params ((fresh small acq1).samples 4)) :=
  ⟨⟨fresh_freshRead (by decide) _, acq3_noReset.mono (by decide), by decide, by decide⟩,
    fresh_freshRead (by decide) _, acq1_noReset.mono (by decide), by decide, by decide⟩

/-- SEGMENT of a read of two HighRuns, with the invariant. -/
theorem inv_segment_two : (classifying .segment 0#6 false [0b000#3, 0b000#3, 0b000#3, 0b000#3]).Inv := by
  constructor
  case widths => exact ⟨by decide, by decide, by decide, by decide⟩
  case buffered => exact classifying_buffered _ _ _ _
  case notDone => exact fun _ => ⟨rfl, rfl, rfl, rfl, rfl, rfl⟩
  case failed => exact fun h => nomatch h
  case okFrame => exact fun h => nomatch h
  all_goals decide

theorem witness_ClassifyRunsExactlyKTimes :
    (classifying .segment 0#6 false [0b000#3, 0b000#3, 0b000#3, 0b000#3]).Inv ∧
    (classifying .segment 0#6 false [0b000#3, 0b000#3, 0b000#3, 0b000#3]).st = .segment ∧
    (classifying .segment 0#6 false [0b000#3, 0b000#3, 0b000#3, 0b000#3]).pins.rst = false ∧
    ∃ u, step (classifying .segment 0#6 false [0b000#3, 0b000#3, 0b000#3, 0b000#3]) = .next u ∧ u.n ≠ 0 ∧ u.k = 2 ∧
      u.NoReset u.k := by
  refine ⟨inv_segment_two, rfl, by decide, _, rfl, by decide, rfl, ?_⟩
  unfold State.NoReset
  decide

theorem witness_ClassifyRunsExactlyKTimes_noHighRun :
    (beforeSegment tail false false 0 65535 0).Inv ∧ (beforeSegment tail false false 0 65535 0).st = .segment ∧
    (beforeSegment tail false false 0 65535 0).pins.rst = false ∧
    ∃ u, step (beforeSegment tail false false 0 65535 0) = .next u ∧ u.n = 0 ∧ u.anyRun = true :=
  ⟨inv_segment, rfl, by decide, _, rfl, rfl, rfl⟩

theorem witness_ContentsAfterClassification :
    (fresh small acq3).FreshRead ∧ wholeTrace (fresh small acq3).params.t ((fresh small acq3).samples 10) = true ∧
    trimTrace (fresh small acq3).params ((fresh small acq3).samples 10) ≠ [] ∧
    [true, false] = classifiedBits (fresh small acq3).params
      (highRuns (trimTrace (fresh small acq3).params ((fresh small acq3).samples 10))) ∧
    (fresh small acq3).NoReset 13 :=
  ⟨fresh_freshRead (by decide) _, by decide, by decide, by decide, acq3_noReset.mono (by decide)⟩

/-- Under WHOLE_RUN, a low sample and then a high line: a trimmed trace with no HighRun, so K = 0. -/
theorem witness_ContentsAfterClassification_noHighRun :
    (fresh small [0#3, 1#3, 1#3, 1#3, 1#3, 0#3]).FreshRead ∧
    wholeTrace small.t ((fresh small [0#3, 1#3, 1#3, 1#3, 1#3, 0#3]).samples 5) = true ∧
    trimTrace small ((fresh small [0#3, 1#3, 1#3, 1#3, 1#3, 0#3]).samples 5) ≠ [] ∧
    [] = classifiedBits small (highRuns (trimTrace small ((fresh small [0#3, 1#3, 1#3, 1#3, 1#3, 0#3]).samples 5))) ∧
    (fresh small [0#3, 1#3, 1#3, 1#3, 1#3, 0#3]).NoReset 6 := by
  refine ⟨fresh_freshRead (by decide) _, by decide, by decide, by decide, ?_⟩
  unfold State.NoReset
  decide

/-- A START edge from DONE, then the edges of V-ACQ-3 or V-ACQ-1. -/
theorem witness_ReadLatency :
    (∃ u, step { given small (0b010#3 :: acq3) with st := .done } = .next u ∧
      wholeTrace u.params.t (u.samples 10) = true ∧
      2 = min (highRuns (trimTrace u.params (u.samples 10))).length 41 ∧
      trimTrace u.params (u.samples 10) ≠ [] ∧ u.NoReset 14) ∧
    ∃ u, step (given small (0b010#3 :: acq1)) = .next u ∧ wholeTrace u.params.t (u.samples 4) = true ∧
      0 = min (highRuns (trimTrace u.params (u.samples 4))).length 41 ∧
      trimTrace u.params (u.samples 4) = [] ∧ u.NoReset 5 := by
  refine ⟨⟨_, rfl, by decide, by decide, by decide, ?_⟩, _, rfl, by decide, by decide, by decide, ?_⟩
  · unfold State.NoReset
    decide
  · unfold State.NoReset
    decide

theorem witness_ReadLatency_start :
    { given small (0b010#3 :: acq3) with st := .done }.params.legal = true ∧
    { given small (0b010#3 :: acq3) with st := .done }.pins.start = true ∧
    { given small (0b010#3 :: acq3) with st := .done }.pins.rst = false ∧
    (given small (0b010#3 :: acq1)).st = .idle ∧ (given small (0b010#3 :: acq1)).pins.start = true := by decide

theorem witness_ReadingIsThatOfTheSamples :
    ((fresh small acq3).FreshRead ∧ wholeTrace (fresh small acq3).params.t ((fresh small acq3).samples 10) = true ∧
      14 = (if trimTrace (fresh small acq3).params ((fresh small acq3).samples 10) = [] then 10 + 1
        else 10 + 2 + min (highRuns (trimTrace (fresh small acq3).params ((fresh small acq3).samples 10))).length 41) ∧
      (fresh small acq3).NoReset 14) ∧
    (fresh small acq1).FreshRead ∧ wholeTrace (fresh small acq1).params.t ((fresh small acq1).samples 4) = true ∧
      5 = (if trimTrace (fresh small acq1).params ((fresh small acq1).samples 4) = [] then 4 + 1
        else 4 + 2 + min (highRuns (trimTrace (fresh small acq1).params ((fresh small acq1).samples 4))).length 41) ∧
      (fresh small acq1).NoReset 5 :=
  ⟨⟨fresh_freshRead (by decide) _, by decide, by decide, acq3_noReset⟩,
    fresh_freshRead (by decide) _, by decide, by decide, acq1_noReset.mono (by decide)⟩

theorem witness_RunTraceIsUnique :
    runSamples [⟨true, 2⟩, ⟨false, 1⟩] = [true, true, false] ∧
    (∀ r ∈ ([⟨true, 2⟩, ⟨false, 1⟩] : List Run), 1 ≤ r.length) ∧
    ([⟨true, 2⟩, ⟨false, 1⟩] : List Run).IsChain (fun a b => a.level ≠ b.level) := by decide

theorem witness_TrimmedRunsWithinThreshold :
    smallest.legal = true ∧ wholeTrace smallest.t [true, false, false] = true ∧
    { small with trim := .tSamples }.legal = true ∧
    wholeTrace small.t [false, true, true, true, false, false, false, false] = true := by decide

theorem witness_NoDataExactlyForUnchangedLine :
    small.legal = true ∧ wholeTrace small.t (List.replicate (small.t + 1) false) = true ∧
    wholeTrace small.t [true, false, false, false, false] = true := by decide

theorem witness_AssembleAndDisassemble :
    (0b110#3).getLsbD 2 = true ∧ (0b011#3).getLsbD 2 = false ∧ (0b011#3).getLsbD 1 = true ∧
    (0b001#3).getLsbD 2 = false ∧ (0b001#3).getLsbD 1 = false := by decide

theorem witness_FrameStatementHighRuns :
    (Stmt.frame 5 3 8 101 0x32#8 0x00#8 0x19#8 0x05#8 0x50#8).wf = true ∧
    (Stmt.frame 1 1 0 1 0x00#8 0x00#8 0x00#8 0x00#8 0x00#8).wf = true := by decide

theorem witness_FrameStatementAcquisition :
    ((Stmt.frame 1 1 3 3 0x32#8 0x00#8 0x19#8 0x05#8 0x50#8).wf = true ∧ 1 ≤ small.t ∧ 1 ≤ small.t ∧ 3 ≤ small.t ∧
      ∀ d ∈ frameBits 0x32#8 0x00#8 0x19#8 0x05#8 0x50#8, bitCount 1 3 d ≤ small.t) ∧
    ((Stmt.frame 4 1 3 3 0x32#8 0x00#8 0x19#8 0x05#8 0x50#8).wf = true ∧ small.t < 4) ∧
    ((Stmt.frame 1 1 3 4 0x32#8 0x00#8 0x19#8 0x05#8 0x50#8).wf = true ∧ small.t < 4) ∧
    (Stmt.frame 1 1 4 3 0x32#8 0x00#8 0x19#8 0x05#8 0x50#8).wf = true ∧
      ∃ d ∈ frameBits 0x32#8 0x00#8 0x19#8 0x05#8 0x50#8, small.t < bitCount 1 4 d := by decide

end Sys2Proof.Machine.Tests
end

/-! SUPPORT. What the scope rules need: the model's own three fields (00_scope.md R5, 30_encoding.md R79) through the
operations, the step as the selected operation (00_scope.md R9), and `classify` (00_scope.md R11). -/

namespace Sys2Proof.Machine

section modelFields

variable (s : State) (code : ReadStatus) (b : Bool)

@[simp] theorem State.finish_params : (s.finish code).params = s.params := by cases code <;> rfl
@[simp] theorem State.finish_stim : (s.finish code).stim = s.stim := by cases code <;> rfl
@[simp] theorem State.finish_edge : (s.finish code).edge = s.edge := by cases code <;> rfl

@[simp] theorem State.trimTail_params : s.trimTail.params = s.params := by
  unfold State.trimTail; split <;> simp
@[simp] theorem State.trimTail_stim : s.trimTail.stim = s.stim := by
  unfold State.trimTail; split <;> simp
@[simp] theorem State.trimTail_edge : s.trimTail.edge = s.edge := by
  unfold State.trimTail; split <;> simp

/-- The branch of SEGMENT as cases (42_classify.md R140): NO_DATA_ERROR, VALIDATE or CLASSIFY. -/
theorem State.endAcquisition_cases :
    (s.anyRun = false ∧ s.endAcquisition = s.finish .noDataError) ∨
    (s.anyRun = true ∧ s.n = 0 ∧ s.endAcquisition = { s with firstBit := false, st := .validate }) ∨
    (s.anyRun = true ∧ s.n ≠ 0 ∧ s.endAcquisition = { s with idx := 0#6, st := .classify }) := by
  cases ha : s.anyRun with
  | false => simp [State.endAcquisition, ha]
  | true => by_cases hn : s.n = 0 <;> simp [State.endAcquisition, ha, hn]

@[simp] theorem State.endAcquisition_params : s.endAcquisition.params = s.params := by
  obtain ⟨-, h⟩ | ⟨-, -, h⟩ | ⟨-, -, h⟩ := s.endAcquisition_cases <;> simp [h]
@[simp] theorem State.endAcquisition_stim : s.endAcquisition.stim = s.stim := by
  obtain ⟨-, h⟩ | ⟨-, -, h⟩ | ⟨-, -, h⟩ := s.endAcquisition_cases <;> simp [h]
@[simp] theorem State.endAcquisition_edge : s.endAcquisition.edge = s.edge := by
  obtain ⟨-, h⟩ | ⟨-, -, h⟩ | ⟨-, -, h⟩ := s.endAcquisition_cases <;> simp [h]

@[simp] theorem State.takeBit_params : (s.takeBit b).params = s.params := by rw [State.takeBit_eq]
@[simp] theorem State.takeBit_stim : (s.takeBit b).stim = s.stim := by rw [State.takeBit_eq]
@[simp] theorem State.takeBit_edge : (s.takeBit b).edge = s.edge := by rw [State.takeBit_eq]

@[simp] theorem State.nextIdx_params : s.nextIdx.params = s.params := by rw [State.nextIdx_eq]
@[simp] theorem State.nextIdx_stim : s.nextIdx.stim = s.stim := by rw [State.nextIdx_eq]
@[simp] theorem State.nextIdx_edge : s.nextIdx.edge = s.edge := by rw [State.nextIdx_eq]

end modelFields

/-- An operation leaves the model's own fields (log 1, log 3) as they were: none of the eleven effects writes them. -/
theorem exec_keeps_modelFields {i : Instr} {s t : State} (h : exec i s = .next t) :
    t.params = s.params ∧ t.stim = s.stim ∧ t.edge = s.edge := by
  obtain ⟨-, rfl⟩ | ⟨-, rfl⟩ | ⟨-, rfl⟩ | ⟨-, rfl⟩ | ⟨-, rfl⟩ | ⟨-, rfl⟩ | ⟨-, rfl⟩ | ⟨-, rfl⟩ |
    ⟨-, len, -, -, rfl⟩ | ⟨-, rfl⟩ | ⟨-, rfl⟩ := exec_next h <;> simp

/-- A step takes one listed word, adds one to the edge number and leaves the parameters. -/
theorem step_modelFields {s t : State} (h : step s = .next t) :
    t.params = s.params ∧ t.stim = s.stim.tail ∧ t.edge = s.edge + 1 := by
  obtain ⟨u, hu, rfl⟩ := step_next h
  obtain ⟨hparams, hstim, hedge⟩ := exec_keeps_modelFields hu
  simp [hparams, hstim, hedge]

/-- Settles O39: each operation's effect (`exec_next`) leaves the three fields alone, and a step adds the passing of the
edge (`step_next`). -/
theorem operationsKeepParameters : Obligations.OperationsKeepParameters :=
  ⟨fun _ _ _ => exec_keeps_modelFields, fun _ _ => step_modelFields⟩

/-- The step of a state whose selector word is known to decode to `i`. -/
theorem step_eq_of_decode {s : State} {i : Instr} (h : decode s.selector = some i) : step s = passEdge (exec i s) := by
  simp only [step, h]

/-- No operation is refused: the one that can stop, CLASSIFY, stops with a fault. -/
theorem exec_ne_refused (i : Instr) (s : State) (r : Refusal) : exec i s ≠ .refused r := by
  intro h
  obtain ⟨-, f, hf, -⟩ := exec_not_next (i := i) (s := s) (by simp [h])
  simp [h] at hf

/-- Settles O6: the step passes the edge after the operation decoded, and `exec` never answers a refusal. -/
theorem stepRunsSelectedOperation : Obligations.StepRunsSelectedOperation := by
  intro s i hi
  refine ⟨?_, exec_ne_refused i s⟩
  rw [step_eq_of_decode hi]
  cases exec i s <;> rfl

/-- `absDiff` is the integers' absolute difference (00_scope.md R8). -/
theorem absDiff_eq_natAbs_sub (a b : Nat) : absDiff a b = ((a : Int) - (b : Int)).natAbs := by
  unfold absDiff
  split <;> omega

/-- Settles O22: `close_run` by the level of the run, where no register write wraps, and `classify` over the integers. -/
theorem closeRunAndClassify : Obligations.CloseRunAndClassify := by
  refine ⟨State.closeRun_low, fun s len hp hw hl => State.closeRun_high_fits hp hw hl, fun mn mx len => ?_⟩
  simp [classifyLen, absDiff_eq_natAbs_sub]

end Sys2Proof.Machine

/-! SUPPORT. The invariant of 10_state.md R40 through the operations. It is cut in two: what holds of the registers in
every sequencer state (`State.DataInv`), and what each sequencer state adds (`State.PhaseInv`). -/

namespace Sys2Proof.Machine

/-- The status and the result bytes read 0, as outside DONE (60_exceptions.md R191). -/
def State.OutputsClear (s : State) : Prop := s.status = .ok ∧ s.bytesZero

/-- The part of the invariant that does not depend on the sequencer state; each field is `State.Inv`'s of that name. -/
structure State.DataInv (s : State) : Prop where
  legal : s.params.legal = true
  widths : s.Widths
  hrbuf : s.hrbuf.wf
  trackers : 1 ≤ s.n → 1 ≤ s.mn ∧ s.mn ≤ s.mx ∧ s.mx ≤ s.params.t
  noHighRun : s.n = 0 → s.mn = s.params.all1 ∧ s.mx = 0
  buffered : ∀ i < s.k, ∃ len, s.hrbuf.read i = some len ∧ s.mn ≤ len ∧ len ≤ s.mx
  counted : 1 ≤ s.n → s.anyRun = true
  idxBound : s.idx.toNat ≤ 40

/-- What the invariant asks of a state whose sequencer is in `q`. -/
def State.PhaseInv (s : State) (q : SeqState) : Prop :=
  match q with
  | .idle => s.OutputsClear
  | .acquire => s.runlen ≤ s.params.t ∧ (s.runlen = 0 → s.anyRun = false) ∧ s.OutputsClear
  | .segment => s.runlen = s.params.t + 1 ∧ s.OutputsClear
  | .classify => s.idx.toNat < s.k ∧ s.OutputsClear
  | .validate => (s.n = 0 → s.firstBit = false) ∧ s.OutputsClear
  | .done =>
    (s.status ≠ .ok → s.bytesZero) ∧
    (s.status = .ok →
      s.bytesFrame ∧ checksumOk s.sr = true ∧ seqReject s.params.seqRule (decide (s.n = 41)) s.firstBit = false) ∧
    (s.status = .noDataError → s.anyRun = false ∧ s.params.trim = .wholeRun)
  | .illegal6 | .illegal7 => False

theorem State.Inv.data {s : State} (h : s.Inv) : s.DataInv := { h with }

theorem State.Inv.phase {s : State} (h : s.Inv) {q : SeqState} (hq : s.st = q) : s.PhaseInv q := by
  have hout : q ≠ .done → s.OutputsClear := fun hne => h.notDone (hq ▸ hne)
  cases q with
  | idle => exact hout (by decide)
  | acquire => exact ⟨h.acquireRun hq, h.acquireFresh hq, hout (by decide)⟩
  | segment => exact ⟨h.segmentRun hq, hout (by decide)⟩
  | classify => exact ⟨h.classifyIdx hq, hout (by decide)⟩
  | validate => exact ⟨h.validateFirst hq, hout (by decide)⟩
  | done => exact ⟨h.failed hq, h.okFrame hq, h.noData hq⟩
  | illegal6 => exact h.stLegal.1 hq
  | illegal7 => exact h.stLegal.2 hq

theorem State.PhaseInv.outputsClear {s : State} {q : SeqState} (hp : s.PhaseInv q) (hne : q ≠ .done) :
    s.OutputsClear := by
  cases q with
  | idle => exact hp
  | acquire => exact hp.2.2
  | segment | classify | validate => exact hp.2
  | done => exact absurd rfl hne
  | illegal6 | illegal7 => exact hp.elim

/-- The two parts together are the invariant. -/
theorem State.DataInv.inv {s : State} (hd : s.DataInv) {q : SeqState} (hq : s.st = q) (hp : s.PhaseInv q) : s.Inv := by
  have phase : ∀ {r}, s.st = r → s.PhaseInv r := fun hr => hr ▸ hq ▸ hp
  exact
    { hd with
      stLegal := ⟨fun h => phase h, fun h => phase h⟩
      acquireRun := fun h => (phase h).1
      acquireFresh := fun h => (phase h).2.1
      segmentRun := fun h => (phase h).1
      classifyIdx := fun h => (phase h).1
      validateFirst := fun h => (phase h).1
      notDone := fun h => (phase rfl).outputsClear h
      failed := fun h => (phase h).1
      okFrame := fun h => (phase h).2.1
      noData := fun h => (phase h).2.2 }

/-! ## The register part -/

/-- RESET and START's writes establish the register part (10_state.md R38), whatever the registers held. -/
theorem State.dataInv_clearRead {s : State} (hp : s.params.legal = true) (hm : s.hrbuf.wf) : s.clearRead.DataInv where
  legal := hp
  widths := ⟨Nat.two_pow_pos _, Nat.two_pow_pos _, s.params.all1_lt, Nat.two_pow_pos _⟩
  hrbuf := hm
  trackers := fun hn => absurd hn (by simp)
  noHighRun := fun _ => ⟨rfl, rfl⟩
  buffered := fun i hi => absurd hi (by simp [State.k])
  counted := fun hn => absurd hn (by simp)
  idxBound := by simp

theorem State.outputsClear_clearRead (s : State) : s.clearRead.OutputsClear := ⟨rfl, rfl, rfl, rfl, rfl, rfl⟩

theorem State.DataInv.set_st {s : State} (hd : s.DataInv) (q : SeqState) : ({ s with st := q } : State).DataInv :=
  { hd with widths := { hd.widths with } }

theorem State.DataInv.setRunlen {s : State} (hd : s.DataInv) (v : Nat) : (s.setRunlen v).DataInv :=
  { hd with widths := { hd.widths with runlen := narrow_lt _ v } }

theorem State.DataInv.openRun {s : State} (hd : s.DataInv) : s.openRun.DataInv :=
  { hd with widths := { hd.widths with runlen := narrow_lt _ 1 } }

theorem State.DataInv.finish {s : State} (hd : s.DataInv) (code : ReadStatus) : (s.finish code).DataInv := by
  cases code <;> exact { hd with widths := { hd.widths with } }

/-- The trackers after a high run of 1..T samples is closed: the first one sets both, a later one widens them
(10_state.md R40 item 4). -/
theorem State.DataInv.trackers_closeRun {s : State} (hd : s.DataInv) {len : Nat} (hpos : 1 ≤ len)
    (hle : len ≤ s.params.t) :
    1 ≤ min s.mn len ∧ min s.mn len ≤ max s.mx len ∧ max s.mx len ≤ s.params.t := by
  obtain hn | hn := Nat.eq_zero_or_pos s.n
  · obtain ⟨hmn, hmx⟩ := hd.noHighRun hn
    have ht := Params.legal_t hd.legal
    omega
  · have := hd.trackers hn
    omega

/-- The buffered runs after a high run is closed: the new one, and those buffered before (10_state.md R40 item 6). -/
theorem State.DataInv.buffered_closeRun {s : State} (hd : s.DataInv) {len : Nat} (hle : len ≤ s.params.t) :
    ∀ i < (s.closeRun true len).k, ∃ l, (s.closeRun true len).hrbuf.read i = some l ∧ min s.mn len ≤ l ∧
      l ≤ max s.mx len := by
  intro i hi
  have ht := Params.legal_t hd.legal
  have hlen : narrow s.params.runW len = len := narrow_of_lt (by omega)
  have hbound : i ≤ s.n ∧ i < 41 := by
    simp only [State.k, State.closeRun_high_fits hd.legal hd.widths (show len < 2 ^ s.params.runW by omega)] at hi
    split at hi <;> omega
  rw [State.closeRun_read, hlen]
  obtain rfl | hne := eq_or_ne i s.n
  · exact ⟨len, by simp [State.closeRunIndex, hbound.2], by omega⟩
  · obtain ⟨l, hread, hlo, hhi⟩ := hd.buffered i (by simp only [State.k]; omega)
    have hidx : s.closeRunIndex true ≠ some i := by simp [State.closeRunIndex, hne.symm]
    exact ⟨l, by rw [if_neg hidx, hread], by omega⟩

/-- `close_run` leaves every register within its width, whatever the length: each write is narrowed (00_scope.md R8). -/
theorem State.Widths.closeRun {s : State} (hw : s.Widths) (level : Bool) (len : Nat) :
    (s.closeRun level len).Widths := by
  cases level with
  | false => exact { hw with }
  | true =>
    rw [State.closeRun_high]
    exact ⟨hw.runlen, narrow_lt _ _, narrow_lt _ _, narrow_lt _ _⟩

/-- Closing a run of 1..T samples keeps the register part (00_scope.md R11). -/
theorem State.DataInv.closeRun {s : State} (hd : s.DataInv) (level : Bool) {len : Nat} (hpos : 1 ≤ len)
    (hle : len ≤ s.params.t) : (s.closeRun level len).DataInv := by
  cases level with
  | false => exact { hd with widths := hd.widths.closeRun false len, counted := fun _ => rfl }
  | true =>
    have ht := Params.legal_t hd.legal
    have hnmax := Params.legal_nmax hd.legal
    have heq := State.closeRun_high_fits hd.legal hd.widths (show len < 2 ^ s.params.runW by omega)
    have hmn : (s.closeRun true len).mn = min s.mn len := by rw [heq]
    have hmx : (s.closeRun true len).mx = max s.mx len := by rw [heq]
    have hn : (s.closeRun true len).n ≠ 0 := by
      rw [heq]
      dsimp only
      split <;> omega
    exact
      { legal := by simpa using hd.legal
        widths := hd.widths.closeRun true len
        hrbuf := State.closeRun_wf hd.hrbuf true len
        trackers := fun _ => by simpa only [hmn, hmx, State.closeRun_params] using hd.trackers_closeRun hpos hle
        noHighRun := fun h => absurd h hn
        buffered := by simpa only [hmn, hmx] using hd.buffered_closeRun hle
        counted := fun _ => s.closeRun_anyRun true len
        idxBound := by simpa using hd.idxBound }

/-- SEGMENT's trimming keeps the register part: the one run it may close has a single sample (41_acquire.md R128). -/
theorem State.DataInv.trimTail {s : State} (hd : s.DataInv) (hrun : s.runlen = s.params.t + 1) :
    s.trimTail.DataInv := by
  unfold State.trimTail
  cases s.params.trim with
  | wholeRun => exact hd
  | tSamples =>
    dsimp only
    rw [State.tailLen_eq_one hd.legal hrun]
    exact hd.closeRun s.prev (Nat.le_refl 1) (Params.legal_t hd.legal).1

/-! ## The operations -/

/-- The passing of an edge writes only the model's own fields (log 3). -/
theorem State.Inv.nextEdge {s : State} (h : s.Inv) : s.nextEdge.Inv := { h with widths := { h.widths with } }

/-- RESET establishes the invariant in every legal build (10_state.md R38). -/
theorem State.inv_reset {s : State} (hp : s.params.legal = true) (hm : s.hrbuf.wf) :
    ({ s.clearRead with st := .idle } : State).Inv :=
  ((State.dataInv_clearRead hp hm).set_st .idle).inv rfl s.outputsClear_clearRead

/-- START establishes the invariant in every legal build (40_control.md R102). -/
theorem State.inv_start {s : State} (hp : s.params.legal = true) (hm : s.hrbuf.wf) :
    ({ s.clearRead with st := .acquire } : State).Inv :=
  ((State.dataInv_clearRead hp hm).set_st .acquire).inv rfl
    ⟨Nat.zero_le _, fun _ => rfl, s.outputsClear_clearRead⟩

/-- A run opens with one sample, and T is at least 1 (41_acquire.md R122, R123). -/
theorem State.DataInv.inv_openRun {s : State} (hd : s.DataInv) (hst : s.st = .acquire) (hout : s.OutputsClear) :
    s.openRun.Inv := by
  have hrun : s.openRun.runlen = 1 := narrow_runW_one hd.legal
  have ht := Params.legal_t hd.legal
  refine hd.openRun.inv (q := .acquire) hst ⟨?_, ?_, hout⟩
  · rw [hrun, State.openRun_params]
    exact ht.1
  · rw [hrun]
    exact fun h => absurd h (by decide)

theorem State.OutputsClear.closeRun {s : State} (h : s.OutputsClear) (level : Bool) (len : Nat) :
    (s.closeRun level len).OutputsClear := by
  simpa [State.OutputsClear, State.bytesZero] using h

theorem State.OutputsClear.trimTail {s : State} (h : s.OutputsClear) : s.trimTail.OutputsClear := by
  unfold State.trimTail
  cases s.params.trim with
  | wholeRun => exact h
  | tSamples => exact h.closeRun s.prev s.tailLen

/-- SAMPLE_CHANGE closes the open run of 1..T samples and opens the next (41_acquire.md R123). -/
theorem State.Inv.sampleChange {s : State} (h : s.Inv) (hst : s.st = .acquire) (hrun : s.runlen ≠ 0) :
    (s.closeRun s.prev s.runlen).openRun.Inv := by
  obtain ⟨hle, -, hout⟩ := h.phase hst
  have hd := h.data.closeRun s.prev (Nat.pos_of_ne_zero hrun) hle
  exact hd.inv_openRun (by simpa using hst) (hout.closeRun _ _)

/-- One more sample in a run of at most T samples does not wrap `runlen` (41_acquire.md R128). -/
theorem State.Inv.setRunlen_succ {s : State} (h : s.Inv) (hst : s.st = .acquire) :
    (s.setRunlen (s.runlen + 1)).runlen = s.runlen + 1 := by
  have ht := Params.legal_t h.legal
  have hle := h.acquireRun hst
  exact narrow_of_lt (by omega)

/-- SAMPLE_EXTEND below T keeps the run open and at most T long (41_acquire.md R124). -/
theorem State.Inv.sampleExtend {s : State} (h : s.Inv) (hst : s.st = .acquire) (hrun : s.runlen ≠ s.params.t) :
    (s.setRunlen (s.runlen + 1)).Inv := by
  obtain ⟨hle, -, hout⟩ := h.phase hst
  have hsucc := h.setRunlen_succ hst
  refine (h.data.setRunlen _).inv (q := .acquire) hst ⟨?_, ?_, hout⟩
  · rw [hsucc, State.setRunlen_params]
    omega
  · rw [hsucc]
    exact fun h0 => absurd h0 (Nat.succ_ne_zero _)

/-- SAMPLE_STOP leaves a run of T + 1 samples to SEGMENT (41_acquire.md R125). -/
theorem State.Inv.sampleStop {s : State} (h : s.Inv) (hst : s.st = .acquire) (hrun : s.runlen = s.params.t) :
    ({ s.setRunlen (s.runlen + 1) with st := .segment } : State).Inv := by
  obtain ⟨-, -, hout⟩ := h.phase hst
  exact ((h.data.setRunlen (s.runlen + 1)).set_st .segment).inv rfl
    ⟨(h.setRunlen_succ hst).trans (congrArg (· + 1) hrun), hout⟩

theorem State.finish_st (s : State) (code : ReadStatus) : (s.finish code).st = .done := by cases code <;> rfl

/-- `finish` (43_validate.md R163) reaches DONE with the invariant when its code tells the truth: OK after both checks,
NO_DATA_ERROR for a read that closed no run. -/
theorem State.DataInv.inv_finish {s : State} (hd : s.DataInv) {code : ReadStatus}
    (hok : code = .ok →
      checksumOk s.sr = true ∧ seqReject s.params.seqRule (decide (s.n = 41)) s.firstBit = false)
    (hno : code = .noDataError → s.anyRun = false ∧ s.params.trim = .wholeRun) : (s.finish code).Inv := by
  refine (hd.finish code).inv (s.finish_st code) ?_
  cases code with
  | ok => exact ⟨fun h => absurd rfl h, fun _ => ⟨⟨rfl, rfl, rfl, rfl, rfl⟩, hok rfl⟩, nofun⟩
  | checksumError | sequenceError => exact ⟨fun _ => ⟨rfl, rfl, rfl, rfl, rfl⟩, nofun, nofun⟩
  | noDataError => exact ⟨fun _ => ⟨rfl, rfl, rfl, rfl, rfl⟩, nofun, fun _ => hno rfl⟩

/-- After the trimming no run is closed only under WHOLE_RUN (42_classify.md R140). -/
theorem State.trim_eq_wholeRun_of_trimTail_anyRun {s : State} (h : s.trimTail.anyRun = false) :
    s.params.trim = .wholeRun := by
  cases ht : s.params.trim with
  | wholeRun => rfl
  | tSamples => simp [State.trimTail, ht] at h

/-- SEGMENT's branch after the trimming (42_classify.md R140). -/
theorem State.DataInv.inv_endAcquisition {s : State} (hd : s.DataInv) (hout : s.OutputsClear)
    (htrim : s.anyRun = false → s.params.trim = .wholeRun) : s.endAcquisition.Inv := by
  obtain ⟨hany, heq⟩ | ⟨-, -, heq⟩ | ⟨-, hn, heq⟩ := s.endAcquisition_cases <;> rw [heq]
  · exact hd.inv_finish nofun fun _ => ⟨hany, htrim hany⟩
  · have hd' : ({ s with firstBit := false, st := .validate } : State).DataInv :=
      { hd with widths := { hd.widths with } }
    exact hd'.inv rfl ⟨fun _ => rfl, hout⟩
  · have hd' : ({ s with idx := 0#6, st := .classify } : State).DataInv :=
      { hd with widths := { hd.widths with }, idxBound := Nat.zero_le _ }
    have hk : 0 < s.k := by simp only [State.k]; omega
    exact hd'.inv rfl ⟨hk, hout⟩

theorem State.Inv.segment {s : State} (h : s.Inv) (hst : s.st = .segment) : s.trimTail.endAcquisition.Inv := by
  obtain ⟨hrun, hout⟩ := h.phase hst
  refine (h.data.trimTail hrun).inv_endAcquisition hout.trimTail fun hany => ?_
  rw [State.trimTail_params]
  exact State.trim_eq_wholeRun_of_trimTail_anyRun hany

theorem State.Inv.takeBit {s : State} (h : s.Inv) (hst : s.st = .classify) (b : Bool) : (s.takeBit b).Inv := by
  have hphase := h.phase hst
  have hd := h.data
  rw [State.takeBit_eq]
  exact State.DataInv.inv { hd with widths := { hd.widths with } } hst hphase

/-- CLASSIFY moves on within the K buffered runs, or ends with at least one of them classified (42_classify.md R141). -/
theorem State.Inv.nextIdx {s : State} (h : s.Inv) (hst : s.st = .classify) : s.nextIdx.Inv := by
  obtain ⟨hidx, hout⟩ := h.phase hst
  have hd := h.data
  have hk : s.k = min s.n 41 := rfl
  unfold State.nextIdx
  split
  · exact (hd.set_st .validate).inv rfl ⟨fun (hn : s.n = 0) => by omega, hout⟩
  · have hnext : (BitVec.ofNat 6 (s.idx.toNat + 1)).toNat = s.idx.toNat + 1 := by
      rw [BitVec.toNat_ofNat]
      omega
    have hbound : s.idx.toNat + 1 < s.k := by omega
    refine State.DataInv.inv { hd with widths := { hd.widths with }, idxBound := ?_ } hst ⟨?_, hout⟩
    · exact hnext.trans_le (by omega)
    · exact hnext.trans_lt hbound

theorem State.Inv.classify {s : State} (h : s.Inv) (hst : s.st = .classify) (b : Bool) : (s.takeBit b).nextIdx.Inv :=
  (h.takeBit hst b).nextIdx (by rw [State.takeBit_eq, hst])

/-- VALIDATE's code is OK only after both checks (43_validate.md R160). -/
theorem State.checks_of_validateCode_ok {s : State} (h : s.validateCode = .ok) :
    checksumOk s.sr = true ∧ seqReject s.params.seqRule (decide (s.n = 41)) s.firstBit = false := by
  unfold State.validateCode at h
  split at h
  · cases h
  · next hrej =>
    split at h
    · next hsum => exact ⟨hsum, by simpa using hrej⟩
    · cases h

theorem State.validateCode_ne_noDataError (s : State) : s.validateCode ≠ .noDataError := by
  unfold State.validateCode
  split
  · decide
  · split <;> decide

theorem State.Inv.validate {s : State} (h : s.Inv) : (s.finish s.validateCode).Inv :=
  h.data.inv_finish State.checks_of_validateCode_ok fun hno => absurd hno s.validateCode_ne_noDataError

/-- Settles O45: by the operation the step selects (`step_cases`); each of them keeps the invariant, and so does the
passing of the edge. -/
theorem stepKeepsInvariant : Obligations.StepKeepsInvariant := by
  intro s t h hstep
  obtain ⟨-, rfl⟩ | ⟨-, hcase⟩ := step_cases hstep
  · exact (State.inv_reset h.legal h.hrbuf).nextEdge
  obtain ⟨-, -, rfl⟩ | ⟨-, -, rfl⟩ | ⟨hst, -, rfl⟩ | ⟨hst, hrun, -, rfl⟩ | ⟨hst, -, -, hrun, rfl⟩ |
    ⟨hst, -, -, hrun, rfl⟩ | ⟨hst, rfl⟩ | ⟨hst, len, -, -, rfl⟩ | ⟨-, rfl⟩ | ⟨hst, -⟩ := hcase
  · exact h.nextEdge
  · exact (State.inv_start h.legal h.hrbuf).nextEdge
  · exact (h.data.inv_openRun hst ((h.phase hst).outputsClear (by decide))).nextEdge
  · exact (h.sampleChange hst hrun).nextEdge
  · exact (h.sampleExtend hst hrun).nextEdge
  · exact (h.sampleStop hst hrun).nextEdge
  · exact (h.segment hst).nextEdge
  · exact (h.classify hst _).nextEdge
  · exact h.validate.nextEdge
  · exact absurd hst (not_or.2 h.stLegal)

/-- Settles O11: the reset state of a build is what RESET leaves of it, with HRBUF empty. -/
theorem resetStateHasInvariant : Obligations.ResetStateHasInvariant := by
  have hreset : ∀ p : Params, p.legal = true → (State.resetOf p).Inv := fun p hp =>
    State.inv_reset (s := State.resetOf p) hp Memory.wf_nil
  exact ⟨hreset _ Params.legal_default, hreset⟩

/-! The register values themselves: at reset (10_state.md R38), and the result registers through the operations
(10_state.md R31, R32). -/

/-- The writes of RESET give every register but HRBUF its reset value (40_control.md R100). -/
theorem State.atResetValues_clearRead (s : State) : ({ s.clearRead with st := .idle } : State).AtResetValues := by
  constructor <;> rfl

/-- Settles O10: the reset state of a build is what RESET leaves of it, with HRBUF empty. -/
theorem resetValues : Obligations.ResetValues := by
  have hreset : ∀ p : Params, (State.resetOf p).AtResetValues ∧ ∀ i : Nat, (State.resetOf p).hrbuf.read i = none :=
    fun p => ⟨(State.resetOf p).atResetValues_clearRead, fun _ => rfl⟩
  exact ⟨(hreset _).1, (hreset _).2, hreset, fun s => ⟨_, rfl, s.atResetValues_clearRead, rfl⟩⟩

/-- Settles O38: by the operation's effect (`exec_next`); SEGMENT writes the results in its empty branch alone
(`State.endAcquisition_cases`). -/
theorem onlyOutcomesWriteResults : Obligations.OnlyOutcomesWriteResults := by
  intro i s t h
  obtain ⟨rfl, -⟩ | ⟨-, rfl⟩ | ⟨rfl, -⟩ | ⟨-, rfl⟩ | ⟨-, rfl⟩ | ⟨-, rfl⟩ | ⟨-, rfl⟩ | ⟨rfl, rfl⟩ |
    ⟨-, len, -, -, rfl⟩ | ⟨rfl, rfl⟩ | ⟨-, rfl⟩ := exec_next h
  · exact .inr (.inl rfl)
  · exact .inl ⟨rfl, rfl, rfl, rfl, rfl, rfl⟩
  · exact .inr (.inr (.inl rfl))
  · exact .inl ⟨rfl, rfl, rfl, rfl, rfl, rfl⟩
  · exact .inl (by simp)
  · exact .inl ⟨rfl, rfl, rfl, rfl, rfl, rfl⟩
  · exact .inl ⟨rfl, rfl, rfl, rfl, rfl, rfl⟩
  · obtain ⟨-, heq⟩ | ⟨-, -, heq⟩ | ⟨-, -, heq⟩ := s.trimTail.endAcquisition_cases
    · exact .inr (.inr (.inr (.inl ⟨rfl, heq⟩)))
    · exact .inl (by simp [heq, s.trimTail_keeps])
    · exact .inl (by simp [heq, s.trimTail_keeps])
  · exact .inl (by simp [State.takeBit_nextIdx])
  · exact .inr (.inr (.inr (.inr ⟨rfl, _, rfl⟩)))
  · exact .inl ⟨rfl, rfl, rfl, rfl, rfl, rfl⟩

end Sys2Proof.Machine

/-! SUPPORT. HRBUF through the operations (20_memory.md R52 to R54): only `close_run` stores to it, so an operation's
effect on it is none, SAMPLE_CHANGE's close or SEGMENT's trimming. And the order of the Frame's bits (R50). -/

namespace Sys2Proof.Machine

section hrbufField

variable (s : State) (code : ReadStatus) (b : Bool)

@[simp] theorem State.finish_hrbuf : (s.finish code).hrbuf = s.hrbuf := by cases code <;> rfl
@[simp] theorem State.takeBit_hrbuf : (s.takeBit b).hrbuf = s.hrbuf := by rw [State.takeBit_eq]
@[simp] theorem State.nextIdx_hrbuf : s.nextIdx.hrbuf = s.hrbuf := by rw [State.nextIdx_eq]
@[simp] theorem State.endAcquisition_hrbuf : s.endAcquisition.hrbuf = s.hrbuf := by
  obtain ⟨-, h⟩ | ⟨-, -, h⟩ | ⟨-, -, h⟩ := s.endAcquisition_cases <;> simp [h]

end hrbufField

theorem State.trimTail_of_wholeRun {s : State} (h : s.params.trim = .wholeRun) : s.trimTail = s := by
  simp only [State.trimTail, h]

theorem State.trimTail_of_tSamples {s : State} (h : s.params.trim = .tSamples) :
    s.trimTail = s.closeRun s.prev s.tailLen := by
  simp only [State.trimTail, h]

/-- Everything an operation can have done to HRBUF (20_memory.md R52). -/
theorem exec_hrbuf {i : Instr} {s t : State} (h : exec i s = .next t) :
    (i = .sampleChange ∧ t.hrbuf = (s.closeRun s.prev s.runlen).hrbuf) ∨
    (i = .segment ∧ t.hrbuf = s.trimTail.hrbuf) ∨
    (i ≠ .sampleChange ∧ i ≠ .segment ∧ t.hrbuf = s.hrbuf) := by
  obtain ⟨rfl, rfl⟩ | ⟨rfl, rfl⟩ | ⟨rfl, rfl⟩ | ⟨rfl, rfl⟩ | ⟨rfl, rfl⟩ | ⟨rfl, rfl⟩ | ⟨rfl, rfl⟩ | ⟨rfl, rfl⟩ |
    ⟨rfl, len, -, -, rfl⟩ | ⟨rfl, rfl⟩ | ⟨rfl, rfl⟩ := exec_next h <;> simp

theorem exec_sampleChange_hrbuf {s t : State} (h : exec .sampleChange s = .next t) :
    t.hrbuf = (s.closeRun s.prev s.runlen).hrbuf := by
  simpa using exec_hrbuf h

theorem exec_segment_hrbuf {s t : State} (h : exec .segment s = .next t) : t.hrbuf = s.trimTail.hrbuf := by
  simpa using exec_hrbuf h

theorem State.trimTail_wf {s : State} (h : s.hrbuf.wf) : s.trimTail.hrbuf.wf := by
  cases ht : s.params.trim with
  | wholeRun => rwa [State.trimTail_of_wholeRun ht]
  | tSamples =>
    rw [State.trimTail_of_tSamples ht]
    exact State.closeRun_wf h s.prev s.tailLen

/-- Every operation keeps HRBUF's canonical form (20_memory.md R54). -/
theorem exec_keeps_hrbuf_wf {i : Instr} {s t : State} (hm : s.hrbuf.wf) (h : exec i s = .next t) : t.hrbuf.wf := by
  obtain ⟨-, heq⟩ | ⟨-, heq⟩ | ⟨-, -, heq⟩ := exec_hrbuf h <;> rw [heq]
  · exact State.closeRun_wf hm s.prev s.runlen
  · exact State.trimTail_wf hm
  · exact hm

/-- Settles O44: the selected operation keeps the form (`exec_keeps_hrbuf_wf`), and the passing of the edge leaves HRBUF
as it is. -/
theorem stepKeepsHrbufForm : Obligations.StepKeepsHrbufForm := by
  refine ⟨Memory.wf_nil, fun s t hm hstep => ?_⟩
  obtain ⟨u, hu, rfl⟩ := step_next hstep
  rw [State.nextEdge_hrbuf]
  exact exec_keeps_hrbuf_wf hm hu

/-- Settles O35: of `exec_hrbuf`'s three effects only the last is left. -/
theorem otherOperationsKeepHrbuf : Obligations.OtherOperationsKeepHrbuf := by
  intro i s t hchange hsegment h a
  obtain ⟨rfl, -⟩ | ⟨rfl, -⟩ | ⟨-, -, heq⟩ := exec_hrbuf h
  · exact absurd rfl hchange
  · exact absurd rfl hsegment
  · rw [heq]

theorem State.closeRunIndex_eq_some_iff (s : State) (level : Bool) (a : Nat) :
    s.closeRunIndex level = some a ↔ a = s.n ∧ a < 41 ∧ level = true := by
  simp only [State.closeRunIndex, Option.ite_none_right_eq_some, Bool.and_eq_true, decide_eq_true_eq,
    Option.some.injEq]
  constructor
  · rintro ⟨⟨hlevel, hn⟩, rfl⟩
    exact ⟨rfl, hn, hlevel⟩
  · rintro ⟨rfl, hn, hlevel⟩
    exact ⟨⟨hlevel, hn⟩, rfl⟩

/-- The one entry `close_run` stores a length that fits to, and the others (00_scope.md R11, 20_memory.md R54). -/
theorem State.closeRun_stores_one_entry (s : State) (level : Bool) {len : Nat} (hlen : len < 2 ^ s.params.runW)
    (a : Nat) :
    (s.closeRunIndex level = some a →
      a = s.n ∧ a < 41 ∧ level = true ∧ (s.closeRun level len).hrbuf.read a = some len) ∧
    (s.closeRunIndex level ≠ some a → (s.closeRun level len).hrbuf.read a = s.hrbuf.read a) := by
  rw [State.closeRun_read, narrow_of_lt hlen]
  refine ⟨fun h => ?_, fun h => if_neg h⟩
  obtain ⟨hn, hlt, hlevel⟩ := (s.closeRunIndex_eq_some_iff level a).1 h
  exact ⟨hn, hlt, hlevel, if_pos h⟩

/-- Settles O36: SAMPLE_CHANGE closes the run that ended, SEGMENT under T_SAMPLES one of a single sample
(`State.tailLen_eq_one`), and under WHOLE_RUN SEGMENT closes none. -/
theorem closeRunStoresOneEntry : Obligations.CloseRunStoresOneEntry := by
  intro s t hlegal
  refine ⟨fun hfits h => ?_, fun hrun htrim h => ?_, fun htrim h a => ?_⟩
  · rw [exec_sampleChange_hrbuf h]
    exact s.closeRun_stores_one_entry s.prev hfits
  · have hfits : 1 < 2 ^ s.params.runW := by
      have := Params.legal_t hlegal
      omega
    rw [exec_segment_hrbuf h, State.trimTail_of_tSamples htrim, State.tailLen_eq_one hlegal hrun]
    exact s.closeRun_stores_one_entry s.prev hfits
  · rw [exec_segment_hrbuf h, State.trimTail_of_wholeRun htrim]

/-- Bit `j` of the shift register is the bit shifted in `j` shifts before the last, or 0 (42_classify.md R141). -/
theorem shiftAll_getLsbD (bs : List Bool) {j : Nat} (hj : j < 40) :
    (shiftAll bs).getLsbD j = bs.reverse[j]?.getD false := by
  induction bs using List.reverseRecOn generalizing j with
  | nil => simp [shiftAll]
  | append_singleton bs b ih =>
    rw [shiftAll_append_singleton, shiftIn_getLsbD, List.reverse_append]
    cases j with
    | zero => simp
    | succ j => simp [hj, ih (Nat.lt_of_succ_lt hj)]

/-- After 40 shifts the first bit shifted in is the most significant one (20_memory.md R50). -/
theorem shiftAll_getLsbD_of_length {bs : List Bool} (hlen : bs.length = 40) {k : Nat} (hk : k < 40) :
    some ((shiftAll bs).getLsbD (39 - k)) = bs[k]? := by
  have hidx : bs.length - 1 - (39 - k) = k := by omega
  rw [shiftAll_getLsbD bs (by omega), List.getElem?_reverse (by omega), hidx]
  simp [hlen, hk]

/-- Byte `j` of a Frame is the slice `sr[39 - 8j : 32 - 8j]` (20_memory.md R50). -/
theorem frameBytes_getElem? (sr : Frame) {j : Nat} (hj : j < 5) :
    [bHint sr, bHdec sr, bTint sr, bTdec sr, bChk sr][j]? = some (sr.extractLsb' (8 * (4 - j)) 8) := by
  interval_cases j <;> rfl

/-- The bit of a Frame's bytes at place `k` of the BitStream (20_memory.md R50). -/
theorem frameBytes_bit (sr : Frame) {k : Nat} (hk : k < 40) :
    ([bHint sr, bHdec sr, bTint sr, bTdec sr, bChk sr][k / 8]?.map fun b => b.getLsbD (7 - k % 8)) =
      some (sr.getLsbD (39 - k)) := by
  have hin : 7 - k % 8 < 8 := by omega
  have hplace : 8 * (4 - k / 8) + (7 - k % 8) = 39 - k := by omega
  rw [frameBytes_getElem? sr (by omega), Option.map_some, BitVec.getLsbD_extractLsb', hplace, decide_eq_true hin,
    Bool.true_and]

/-- Settles O32: the place in `sr` by induction over the shifts (`shiftAll_getLsbD`), the place in the byte by its slice
(`frameBytes_bit`). -/
theorem frameBitOrder : Obligations.FrameBitOrder := by
  intro bs hlen k hk
  have hbit := shiftAll_getLsbD_of_length hlen hk
  exact ⟨hbit, (frameBytes_bit _ hk).trans hbit⟩

/-- CLASSIFY stops where `HRRead` does, under the same name. -/
theorem exec_classify_of_hrRead_error {s : State} {f : Fault} (h : s.hrRead s.idx.toNat = .error f) :
    exec .classify s = .fault f := by
  simp only [exec, execClassify, h]

/-- Settles O25: CLASSIFY alone can stop (`exec_not_next`), and it does where `HRRead` faults. -/
theorem classifyStopsOnlyWithoutEntry : Obligations.ClassifyStopsOnlyWithoutEntry := by
  intro s
  have herror := s.hrRead_error_iff s.idx.toNat
  refine ⟨fun hidx hread => ?_, fun hidx => ?_, fun i h => ?_⟩
  · exact exec_classify_of_hrRead_error ((herror _).2 (.inl ⟨hidx, hread, rfl⟩))
  · exact exec_classify_of_hrRead_error ((herror _).2 (.inr ⟨hidx, rfl⟩))
  · obtain ⟨hi, f, -, hf⟩ := exec_not_next h
    obtain ⟨-, hread, -⟩ | ⟨hidx, -⟩ := (herror f).1 hf
    · exact ⟨hi, .inr hread⟩
    · exact ⟨hi, .inl hidx⟩

end Sys2Proof.Machine

/-! SUPPORT. The selector word and its rows (30_encoding.md R70 to R73), the input word (R79) and the RESULT word (R75). -/

namespace Sys2Proof.Machine

/-- The fields of a selector word laid out from them (30_encoding.md R70). -/
theorem selOf_fields (r : Bool) (st : SeqState) (g f e h : Bool) :
    (selOf r st g f e h).getLsbD 7 = r ∧ (selOf r st g f e h).extractLsb' 4 3 = st.code ∧
    (selOf r st g f e h).getLsbD 3 = g ∧ (selOf r st g f e h).getLsbD 2 = f ∧
    (selOf r st g f e h).getLsbD 1 = e ∧ (selOf r st g f e h).getLsbD 0 = h := by
  refine ⟨?_, ?_, ?_, ?_, ?_, ?_⟩
  case refine_2 =>
    rw [selOf, extractLsb'_append_high _ _ (by decide), extractLsb'_append_high _ _ (by decide),
      extractLsb'_append_high _ _ (by decide), extractLsb'_append_high _ _ (by decide),
      extractLsb'_append_low _ _ (by decide)]
    simp
  all_goals
    simp only [selOf, BitVec.getLsbD_append]
    simp

theorem SeqState.code_ofCode (c : BitVec 3) : (SeqState.ofCode c).code = c := by
  revert c
  decide

/-- A selector word is laid out from its fields (30_encoding.md R70). -/
theorem selOf_of_fields (w : Sel) :
    selOf (w.getLsbD 7) (SeqState.ofCode (w.extractLsb' 4 3)) (w.getLsbD 3) (w.getLsbD 2) (w.getLsbD 1)
      (w.getLsbD 0) = w := by
  obtain ⟨h7, hst, h3, h2, h1, h0⟩ := selOf_fields (w.getLsbD 7) (SeqState.ofCode (w.extractLsb' 4 3)) (w.getLsbD 3)
    (w.getLsbD 2) (w.getLsbD 1) (w.getLsbD 0)
  rw [SeqState.code_ofCode] at hst
  generalize selOf _ _ _ _ _ _ = v at *
  have hbit : ∀ i < 3, v.getLsbD (4 + i) = w.getLsbD (4 + i) := fun i hi => by
    simpa [hi] using congrArg (·.getLsbD i) hst
  refine BitVec.eq_of_getLsbD_eq fun i hi => ?_
  interval_cases i
  exacts [h0, h1, h2, h3, hbit 0 (by decide), hbit 1 (by decide), hbit 2 (by decide), h7]

/-- Every word decodes to the operation its fields select (30_encoding.md R72). -/
theorem decode_of_fields (w : Sel) :
    decode w = some (opOf (w.getLsbD 7) (SeqState.ofCode (w.extractLsb' 4 3)) (w.getLsbD 3) (w.getLsbD 2) (w.getLsbD 1)
      (w.getLsbD 0)) := by
  rw [← decode_selOf, selOf_of_fields]

theorem mem_instrAll (i : Instr) : i ∈ Instr.all := by
  cases i <;> decide

/-- The rows are disjoint: two rows that agree on every bit both fix are one row (30_encoding.md R72). -/
theorem rows_disjoint {i j : Instr} (h : i.matchBits &&& j.mask = j.matchBits &&& i.mask) : i = j := by
  have hrows : ∀ i ∈ Instr.all, ∀ j ∈ Instr.all, i.matchBits &&& j.mask = j.matchBits &&& i.mask → i = j := by
    decide
  exact hrows i (mem_instrAll i) j (mem_instrAll j) h

theorem eq_of_matches {w : Sel} {i j : Instr} (hi : w &&& i.mask = i.matchBits) (hj : w &&& j.mask = j.matchBits) :
    i = j := by
  refine rows_disjoint ?_
  rw [← hi, ← hj, BitVec.and_assoc, BitVec.and_assoc, BitVec.and_comm i.mask]

/-- "A word matches a row when `(SEL & mask) == match`" (30_encoding.md R71): a word decodes to the row it matches. -/
theorem decode_eq_some_iff (w : Sel) (i : Instr) : decode w = some i ↔ w &&& i.mask = i.matchBits := by
  have hmatches : ∀ {k}, decode w = some k → w &&& k.mask = k.matchBits := fun h => by
    simpa [Instr.matchesSel] using List.find?_some h
  refine ⟨hmatches, fun hi => ?_⟩
  have hk := decode_of_fields w
  rw [hk, eq_of_matches (hmatches hk) hi]

/-- Settles O1: every word decodes (`decode_of_fields`), and the row it decodes to is the one it matches. -/
theorem selectorRowsDisjointAndTotal : Obligations.SelectorRowsDisjointAndTotal := by
  intro w
  have hw := decode_of_fields w
  refine ⟨_, hw, fun j => ?_⟩
  rw [← decode_eq_some_iff, hw, Option.some.injEq, eq_comm]

/-- An operation's word holds the bits its row fixes, whatever its don't-care bits (30_encoding.md R71). -/
theorem encodeWith_matches (fill : Sel) (i : Instr) : encodeWith fill i &&& i.mask = i.matchBits := by
  have hfixed : i.matchBits &&& i.mask = i.matchBits := by cases i <;> rfl
  rw [encodeWith, BitVec.and_or_distrib_right, hfixed, BitVec.and_assoc, BitVec.not_and_self]
  simp

/-- Settles O2: an operation's word matches its row (`encodeWith_matches`). -/
theorem encodedOperationDecodes : Obligations.EncodedOperationDecodes := by
  intro i fill
  have hdecode : ∀ v, decode (encodeWith v i) = some i := fun v => (decode_eq_some_iff _ i).2 (encodeWith_matches v i)
  exact ⟨hdecode fill, by simp [encode, hdecode]⟩

theorem decodeTableWord_eq_decode {w : Nat} (hw : w < 256) : decodeTableWord 8 w = decode (BitVec.ofNat 8 w) := by
  simp only [decodeTableWord, decodeBits, ne_eq, not_true_eq_false, if_false, Nat.not_le.2 hw]
  cases decode (BitVec.ofNat 8 w) <;> rfl

/-- Settles O3: eleven closed words. -/
theorem operationWordsWrittenOut : Obligations.OperationWordsWrittenOut :=
  ⟨rfl, rfl, rfl, rfl, rfl, rfl, rfl, rfl, rfl, rfl, rfl⟩

/-- Settles O4: the selector is laid out from the fields (`selOf_fields`), and the row it matches is the one it decodes
to. -/
theorem selectorWordFields : Obligations.SelectorWordFields := by
  intro s
  obtain ⟨hrst, hst, hstart, hf, he, hh⟩ := selOf_fields s.pins.rst s.st s.pins.start s.selF s.selE s.selH
  refine ⟨hrst, hst, hstart, hf, he, hh, s.op, s.decode_selector, fun j hj => ?_⟩
  simpa [s.decode_selector, eq_comm] using (decode_eq_some_iff s.selector j).2 hj

/-- The condition column of 30_encoding.md R71, over the fields of the selector word. -/
theorem opOf_eq_iff (r : Bool) (st : SeqState) (g f e h : Bool) :
    (opOf r st g f e h = .reset ↔ r = true) ∧
    (opOf r st g f e h = .wait ↔ r = false ∧ (st = .idle ∨ st = .done) ∧ g = false) ∧
    (opOf r st g f e h = .start ↔ r = false ∧ (st = .idle ∨ st = .done) ∧ g = true) ∧
    (opOf r st g f e h = .sampleFirst ↔ r = false ∧ st = .acquire ∧ f = true) ∧
    (opOf r st g f e h = .sampleChange ↔ r = false ∧ st = .acquire ∧ f = false ∧ e = false) ∧
    (opOf r st g f e h = .sampleExtend ↔ r = false ∧ st = .acquire ∧ f = false ∧ e = true ∧ h = false) ∧
    (opOf r st g f e h = .sampleStop ↔ r = false ∧ st = .acquire ∧ f = false ∧ e = true ∧ h = true) ∧
    (opOf r st g f e h = .segment ↔ r = false ∧ st = .segment) ∧
    (opOf r st g f e h = .classify ↔ r = false ∧ st = .classify) ∧
    (opOf r st g f e h = .validate ↔ r = false ∧ st = .validate) ∧
    (opOf r st g f e h = .illegal ↔ r = false ∧ (st = .illegal6 ∨ st = .illegal7)) := by
  cases r with
  | true => simp [opOf]
  | false =>
    cases st with
    | idle | done => cases g <;> simp [opOf]
    | acquire => cases f <;> cases e <;> cases h <;> simp [opOf]
    | segment | classify | validate | illegal6 | illegal7 => simp [opOf]

/-- Settles O5: the columns are closed values, the matching rule is `decode_eq_some_iff`, and the selector decodes by its
fields' conditions (`opOf_eq_iff`). -/
theorem operationMap : Obligations.OperationMap := by
  refine ⟨rfl, decode_eq_some_iff, fun s => ?_⟩
  simpa only [State.decode_selector, Option.some.injEq, State.op, State.selF, State.selE, State.selH, decide_eq_true_eq,
    decide_eq_false_iff_not, ne_eq] using opOf_eq_iff s.pins.rst s.st s.pins.start s.selF s.selE s.selH

/-- H is not asked where F is 1 (30_encoding.md R71): the first sample of a read is taken whatever H reads. -/
theorem opOf_and_not_first (r : Bool) (st : SeqState) (g f e h : Bool) : opOf r st g f e (!f && h) = opOf r st g f e h := by
  cases f with
  | true => cases st <;> rfl
  | false => rfl

/-- The comparisons that `runlenFor` is chosen for (log 10). -/
theorem runlenFor_fields {t : Nat} (ht : 1 ≤ t) (f h : Bool) (now : Nat) :
    decide (runlenFor f h t now = 0) = f ∧ decide (runlenFor f h t now = t) = (!f && h) := by
  unfold runlenFor
  cases f with
  | true => simp [Nat.ne_of_lt ht]
  | false =>
    cases h with
    | true => simp [Nat.ne_of_gt ht]
    | false =>
      simp only [Bool.false_eq_true, if_false]
      split
      · simp_all
      · split <;> simp_all [eq_comm]

/-- The selector word `withSel` forms in a legal build: the word given, but with H read as 0 where F is 1. -/
theorem State.withSel_selector {s : State} (hlegal : s.params.legal = true) (w : Sel) :
    (s.withSel w).selector =
      selOf (w.getLsbD 7) (SeqState.ofCode (w.extractLsb' 4 3)) (w.getLsbD 3) (w.getLsbD 2) (w.getLsbD 1)
        (!w.getLsbD 2 && w.getLsbD 0) := by
  obtain ⟨hf, hh⟩ := runlenFor_fields (Params.legal_t hlegal).1 (w.getLsbD 2) (w.getLsbD 0) s.runlen
  have he : decide ((if w.getLsbD 1 then s.prev else !s.prev) = s.prev) = w.getLsbD 1 := by
    cases w.getLsbD 1 <;> simp
  simp only [State.selector, State.selF, State.selE, State.selH, State.withSel_pins, State.withSel_st,
    State.withSel_runlen, State.withSel_prev, State.withSel_params, hf, hh, he]

/-- Settles O7: the word formed differs from the one given in H at most, where F is 1 and H is not asked
(`opOf_and_not_first`). -/
theorem fetchWordSelectsItsOperation : Obligations.FetchWordSelectsItsOperation := by
  intro s w hlegal hw
  rw [State.withFetchWord, State.withSel_selector hlegal, decode_selOf, opOf_and_not_first,
    decodeTableWord_eq_decode hw, decode_of_fields]

theorem Pins.ofWord_word (w : InWord) : (Pins.ofWord w).word = w := by
  revert w
  decide

/-- The pins at an edge whose input word is presented are the word's bits (30_encoding.md R79). -/
theorem State.present_pinsAt {s : State} {p : List InWord} {k : Nat} {w : InWord} (hw : p[k]? = some w) :
    (s.present p).pinsAt k = Pins.ofWord w := by
  obtain ⟨hk, rfl⟩ := List.getElem?_eq_some_iff.1 hw
  simp only [State.pinsAt, State.present, ← List.map_drop, List.drop_eq_getElem_cons hk, List.map_cons, pinsOf,
    Edge.ofWord, LineLevel.sample_ofBool]
  rfl

/-- Settles O8: the pins are those of the word (`State.present_pinsAt`). -/
theorem inputWordIsThePins : Obligations.InputWordIsThePins := by
  intro s p k w hw
  rw [State.present_pinsAt hw]
  exact ⟨Pins.ofWord_word w, rfl, rfl, rfl⟩

theorem State.busy_eq_decide (s : State) :
    s.busy = decide (s.st = .acquire ∨ s.st = .segment ∨ s.st = .classify ∨ s.st = .validate) := by
  unfold State.busy
  split <;> simp_all

/-- The byte and status fields of the RESULT word (30_encoding.md R75). -/
theorem State.result_slices (s : State) :
    s.result.extractLsb' 40 2 = s.status.code ∧ s.result.extractLsb' 32 8 = s.rHint ∧
    s.result.extractLsb' 24 8 = s.rHdec ∧ s.result.extractLsb' 16 8 = s.rTint ∧ s.result.extractLsb' 8 8 = s.rTdec ∧
    s.result.extractLsb' 0 8 = s.rChk := by
  refine ⟨?_, ?_, ?_, ?_, ?_, ?_⟩ <;>
    simp (disch := decide) only [State.result, extractLsb'_append_high, extractLsb'_append_low, Nat.reduceSub,
      BitVec.extractLsb'_eq_self]

/-- A slice of the low `m` bits is a slice of the word. -/
theorem extractLsb'_of_extractLsb' {n : Nat} (x : BitVec n) {m i k : Nat} (h : i + k ≤ m) :
    (x.extractLsb' 0 m).extractLsb' i k = x.extractLsb' i k := by
  apply BitVec.eq_of_getLsbD_eq
  intro j hj
  have hin : i + j < m := by omega
  simp [hj, hin]

/-- The low 40 bits of the RESULT word are the five result bytes (30_encoding.md R75). -/
theorem State.result_bytes (s : State) :
    s.result.extractLsb' 0 40 = s.rHint ++ s.rHdec ++ s.rTint ++ s.rTdec ++ s.rChk := by
  obtain ⟨-, hhint, hhdec, htint, htdec, hchk⟩ := s.result_slices
  rw [← bytes_of_frame (s.result.extractLsb' 0 40), bHint, bHdec, bTint, bTdec, bChk]
  simp (disch := decide) only [extractLsb'_of_extractLsb', hhint, hhdec, htint, htdec, hchk]

/-- Settles O34: the word's slices are its fields, and in DONE with OK the five bytes are the Frame's
(`State.Inv.okFrame`). -/
theorem resultWordFields : Obligations.ResultWordFields := by
  refine ⟨fun p => by simp [State.result, State.resetOf, State.done, State.busy, ReadStatus.code], fun s => ?_⟩
  obtain ⟨hstatus, hhint, hhdec, htint, htdec, hchk⟩ := s.result_slices
  refine ⟨?_, ?_, hstatus, hhint, hhdec, htint, htdec, hchk, fun hinv hst hok => ?_⟩
  · simp only [State.result, BitVec.getLsbD_append]
    simp [State.done]
  · rw [← s.busy_eq_decide]
    simp only [State.result, BitVec.getLsbD_append]
    simp
  · obtain ⟨⟨hbhint, hbhdec, hbtint, hbtdec, hbchk⟩, -, -⟩ := hinv.okFrame hst hok
    rw [s.result_bytes, hbhint, hbhdec, hbtint, hbtdec, hbchk, bytes_of_frame]

end Sys2Proof.Machine

/-! SUPPORT. Assembly (30_encoding.md R82), the samples of a FRAME as a run sequence (30_encoding.md R81, 41_acquire.md
R127), and where acquisition stops in them (41_acquire.md R121). -/

namespace Sys2Proof.Machine

/-- Assembly is the concatenation of the statements' words (30_encoding.md R82). -/
theorem assemble_append (t : Nat) (a b : List Stmt) : assemble t (a ++ b) = assemble t a ++ assemble t b :=
  List.flatMap_append

theorem assemble_singleton (t : Nat) (s : Stmt) : assemble t [s] = (s.expand t).flatMap BaseStmt.words := by
  simp [assemble]

/-- Settles O58: the three cases of disassembly are its definition's, and the words of the four base statements are
checked one by one. -/
theorem assembleAndDisassemble : Obligations.AssembleAndDisassemble := by
  refine ⟨assemble_append, assemble_singleton, fun w hrst => ?_, fun w hrst hstart => ?_, fun w hrst hstart => ?_, ?_⟩
  · simp only [disassemble, hrst, if_true]
  · simp only [disassemble, hrst, hstart, if_true, Bool.false_eq_true, if_false]
  · simp only [disassemble, hrst, hstart, Bool.false_eq_true, if_false]
  · rintro w (rfl | rfl | rfl | rfl) <;> rfl

@[simp] theorem runSamples_nil : runSamples [] = [] := rfl

@[simp] theorem runSamples_cons (r : Run) (rs : List Run) :
    runSamples (r :: rs) = List.replicate r.length r.level ++ runSamples rs := rfl

@[simp] theorem runSamples_append (rs rs' : List Run) : runSamples (rs ++ rs') = runSamples rs ++ runSamples rs' :=
  List.flatMap_append

/-- The first sample is of the first run's level, where that run is not empty. -/
theorem runSamples_head? {r : Run} (hr : 1 ≤ r.length) (rs : List Run) : (runSamples (r :: rs)).head? = some r.level := by
  simp [List.head?_append, List.head?_replicate, Nat.ne_of_gt hr]

/-- Runs of at least one sample whose levels alternate are the RunTrace of their samples (41_acquire.md R127). -/
theorem runTrace_runSamples {rs : List Run} (hpos : ∀ r ∈ rs, 1 ≤ r.length)
    (halt : rs.IsChain fun a b => a.level ≠ b.level) : runTrace (runSamples rs) = rs := by
  induction rs with
  | nil => rfl
  | cons r rs ih =>
    obtain ⟨hr, hpos⟩ := List.forall_mem_cons.1 hpos
    obtain ⟨hnext, halt⟩ := List.isChain_cons.1 halt
    have hlast : (List.replicate r.length r.level).getLast? = some r.level := by
      simp [List.getLast?_replicate, Nat.ne_of_gt hr]
    have hcut : (List.replicate r.length r.level).getLast? ≠ (runSamples rs).head? ∨ runSamples rs = [] := by
      cases rs with
      | nil => exact .inr rfl
      | cons r' rs =>
        rw [hlast, runSamples_head? (hpos r' List.mem_cons_self)]
        exact .inl (by simpa using hnext r' rfl)
    rw [runSamples_cons, runTrace_append hcut, runTrace_replicate _ hr, ih hpos halt]
    rfl

/-- The runs of a train of high pulses, each after a low gap of `g` samples. -/
def pulseRuns (g : Nat) (cs : List Nat) : List Run :=
  cs.flatMap fun c => [⟨false, g⟩, ⟨true, c⟩]

@[simp] theorem pulseRuns_nil (g : Nat) : pulseRuns g [] = [] := rfl

@[simp] theorem pulseRuns_cons (g c : Nat) (cs : List Nat) :
    pulseRuns g (c :: cs) =
      ⟨false, g⟩ :: ⟨true, c⟩ :: pulseRuns g cs := rfl

theorem forall_mem_pulseRuns {P : Nat → Prop} {g : Nat} {cs : List Nat} (hg : P g) (hcs : ∀ c ∈ cs, P c) :
    ∀ r ∈ pulseRuns g cs, P r.length := by
  simp only [pulseRuns, List.mem_flatMap]
  rintro r ⟨c, hc, hr⟩
  obtain rfl | rfl := List.mem_pair.1 hr
  · exact hg
  · exact hcs c hc

/-- The levels of a pulse train alternate, a last low run included. -/
theorem pulseRuns_append_low_isChain (g : Nat) (cs : List Nat) :
    (pulseRuns g cs ++ [(⟨false, g⟩ : Run)]).IsChain fun a b => a.level ≠ b.level := by
  induction cs with
  | nil => exact .singleton _
  | cons c cs ih =>
    have hhead : ∀ r ∈ (pulseRuns g cs ++ [(⟨false, g⟩ : Run)]).head?, true ≠ r.level := by
      cases cs <;> simp
    exact List.isChain_cons_cons.2 ⟨Bool.false_ne_true, List.isChain_cons.2 ⟨hhead, ih⟩⟩

theorem pulseRuns_filter_high (g : Nat) (cs : List Nat) :
    ((pulseRuns g cs).filter (·.level)).map (·.length) = cs := by
  induction cs with
  | nil => rfl
  | cons c cs ih => simp [ih]

/-- The lengths of FRAME's pulses: the handshake's, then one for each data bit (30_encoding.md R81). -/
def framePulses (s l h : Nat) (ds : List Bool) : List Nat := h :: ds.map (bitCount s l)

/-- FRAME's runs: its pulses, each after a low gap, and the last gap (30_encoding.md R81). -/
def frameRuns (g s l h : Nat) (ds : List Bool) : List Run :=
  pulseRuns g (framePulses s l h ds) ++ [⟨false, g⟩]

/-- The samples of the data bits are a pulse train's. -/
theorem dataSamples_eq_runSamples (g s l : Nat) (ds : List Bool) :
    (ds.flatMap fun d => List.replicate g false ++ List.replicate (bitCount s l d) true) =
      runSamples (pulseRuns g (ds.map (bitCount s l))) := by
  induction ds with
  | nil => rfl
  | cons d ds ih => simp [ih]

/-- FRAME assembles to the samples of its runs (30_encoding.md R81, R82). -/
theorem assemble_frame_samples (t g s l h : Nat) (b0 b1 b2 b3 b4 : Byte) :
    (assemble t [.frame g s l h b0 b1 b2 b3 b4]).map (·.getLsbD 0) =
      runSamples (frameRuns g s l h (frameBits b0 b1 b2 b3 b4)) := by
  simp only [assemble_singleton, Stmt.expand, List.flatMap_append, List.map_append, runStmts_samples, bitStmts_samples,
    dataSamples_eq_runSamples]
  simp [frameRuns, framePulses]

/-- IDLE's samples, T + 1 of one level (30_encoding.md R81). -/
theorem assemble_idle_samples (t : Nat) (v : Bool) :
    (assemble t [.idle v]).map (·.getLsbD 0) = List.replicate (t + 1) v := by
  rw [assemble_singleton, Stmt.expand, runStmts_samples]

section frameRuns

variable {g s l h : Nat} {ds : List Bool}

theorem forall_mem_framePulses {P : Nat → Prop} (hh : P h) (hds : ∀ d ∈ ds, P (bitCount s l d)) :
    ∀ c ∈ framePulses s l h ds, P c :=
  List.forall_mem_cons.2 ⟨hh, List.forall_mem_map.2 hds⟩

theorem forall_mem_frameRuns {P : Nat → Prop} (hg : P g) (hh : P h) (hds : ∀ d ∈ ds, P (bitCount s l d)) :
    ∀ r ∈ frameRuns g s l h ds, P r.length := by
  intro r hr
  obtain hr | hr := List.mem_append.1 hr
  · exact forall_mem_pulseRuns hg (forall_mem_framePulses hh hds) r hr
  · rwa [List.mem_singleton.1 hr]

/-- FRAME's runs are the RunTrace of its samples, where each count its expansion uses is at least 1. -/
theorem runTrace_frameRuns (hg : 1 ≤ g) (hh : 1 ≤ h) (hds : ∀ d ∈ ds, 1 ≤ bitCount s l d) :
    runTrace (runSamples (frameRuns g s l h ds)) = frameRuns g s l h ds :=
  runTrace_runSamples (forall_mem_frameRuns hg hh hds) (pulseRuns_append_low_isChain g _)

theorem frameRuns_getLast? (hg : 1 ≤ g) : (runSamples (frameRuns g s l h ds)).getLast? = some false := by
  simp [frameRuns, List.getLast?_append, List.getLast?_replicate, Nat.ne_of_gt hg]

end frameRuns

/-- Settles O59: FRAME's runs are the RunTrace of its samples (`runTrace_frameRuns`), and its high ones are its pulses. -/
theorem frameStatementHighRuns : Obligations.FrameStatementHighRuns := by
  intro t g s l h b0 b1 b2 b3 b4 hwf
  obtain ⟨hg, hh, hds⟩ := Stmt.frame_wf_iff.1 hwf
  rw [assemble_frame_samples, highRuns, runTrace_frameRuns hg hh hds, frameRuns, List.filter_append, List.map_append,
    pulseRuns_filter_high]
  simp [framePulses, bitCount]

/-- Acquisition that stops, but not before the last sample, stops at the last sample (41_acquire.md R121). -/
theorem acquireFrom_concat {t : Nat} {xs ys : List Bool} {x p : Bool} {u : Nat} (hnone : acquireFrom t p u xs = none)
    (hsome : acquireFrom t p u (xs ++ [x]) = some ys) : ys = xs ++ [x] := by
  induction xs generalizing p u ys with
  | nil =>
    simp only [List.nil_append, acquireFrom, Option.map_none] at hsome
    split at hsome
    · split at hsome
      · simpa [eq_comm] using hsome
      · cases hsome
    · cases hsome
  | cons y xs ih =>
    simp only [List.cons_append, acquireFrom] at hnone hsome
    split at hnone
    · next hy =>
      rw [if_pos hy] at hsome
      split at hnone
      · cases hnone
      · next hu =>
        rw [if_neg hu] at hsome
        obtain ⟨zs, hzs, rfl⟩ := Option.map_eq_some_iff.1 hsome
        rw [ih (Option.map_eq_none_iff.1 hnone) hzs, List.cons_append]
    · next hy =>
      rw [if_neg hy] at hsome
      obtain ⟨zs, hzs, rfl⟩ := Option.map_eq_some_iff.1 hsome
      rw [ih (Option.map_eq_none_iff.1 hnone) hzs, List.cons_append]

theorem acquireTrace_concat {t : Nat} {xs ys : List Bool} {x : Bool} (hnone : acquireTrace t xs = none)
    (hsome : acquireTrace t (xs ++ [x]) = some ys) : ys = xs ++ [x] := by
  cases xs with
  | nil => simp [acquireTrace, acquireFrom] at hsome
  | cons y xs =>
    obtain ⟨zs, hzs, rfl⟩ := Option.map_eq_some_iff.1 hsome
    rw [acquireFrom_concat (Option.map_eq_none_iff.1 hnone) hzs, List.cons_append]

/-- Acquisition stops where some run is longer than T (41_acquire.md R121). -/
theorem acquireTrace_of_long_run {t : Nat} (ht : 1 ≤ t) {xs : List Bool} (hlong : ∃ r ∈ runTrace xs, t < r.length) :
    ∃ ys, acquireTrace t xs = some ys := by
  rw [← Option.ne_none_iff_exists', Ne, acquireTrace_eq_none_iff ht]
  obtain ⟨r, hr, hlt⟩ := hlong
  exact fun hle => absurd (hle r hr) (Nat.not_le.2 hlt)

/-- T + 1 samples of a new level end acquisition at their last one (41_acquire.md R121, R125). -/
theorem wholeTrace_append_replicate {t : Nat} (ht : 1 ≤ t) {xs : List Bool} {b : Bool}
    (hnone : acquireTrace t xs = none) (hlast : xs.getLast? ≠ some b) :
    wholeTrace t (xs ++ List.replicate (t + 1) b) = true := by
  have hruns : ∀ n, 1 ≤ n → runTrace (xs ++ List.replicate n b) = runTrace xs ++ [⟨b, n⟩] := fun n hn => by
    rw [runTrace_append (.inl (by simpa [List.head?_replicate, Nat.ne_of_gt hn] using hlast)), runTrace_replicate b hn]
  have hshort : acquireTrace t (xs ++ List.replicate t b) = none := by
    rw [acquireTrace_eq_none_iff ht, hruns t ht]
    simpa [or_imp, forall_and] using (acquireTrace_eq_none_iff ht xs).1 hnone
  obtain ⟨ys, hys⟩ : ∃ ys, acquireTrace t (xs ++ List.replicate (t + 1) b) = some ys :=
    acquireTrace_of_long_run ht ⟨⟨b, t + 1⟩, by simp [hruns], Nat.lt_succ_self t⟩
  rw [List.replicate_succ', ← List.append_assoc] at hys ⊢
  rw [wholeTrace, hys, acquireTrace_concat hshort hys]
  simp

/-- A long run before the last run stops acquisition before the last sample (41_acquire.md R121). -/
theorem acquireTrace_stops_early {t : Nat} (ht : 1 ≤ t) {xs zs : List Bool} (hzs : zs ≠ [])
    (hlong : ∃ r ∈ runTrace xs, t < r.length) :
    ∃ ys, acquireTrace t (xs ++ zs) = some ys ∧ ys <+: xs ++ zs ∧ ys.length < (xs ++ zs).length := by
  obtain ⟨ys, hys⟩ := acquireTrace_of_long_run ht hlong
  have hprefix := acquireTrace_prefix hys
  refine ⟨ys, acquireTrace_append hys, hprefix.trans (List.prefix_append xs zs), ?_⟩
  have := hprefix.length_le
  have := List.length_pos_iff.2 hzs
  rw [List.length_append]
  omega

section frameAcquisition

variable {t g s l h : Nat} {ds : List Bool}

/-- With its counts in 1..T, FRAME does not end acquisition (30_encoding.md R81). -/
theorem acquireTrace_frameRuns_eq_none (ht : 1 ≤ t) (hg : 1 ≤ g ∧ g ≤ t) (hh : 1 ≤ h ∧ h ≤ t)
    (hds : ∀ d ∈ ds, 1 ≤ bitCount s l d ∧ bitCount s l d ≤ t) :
    acquireTrace t (runSamples (frameRuns g s l h ds)) = none := by
  rw [acquireTrace_eq_none_iff ht, runTrace_frameRuns hg.1 hh.1 fun d hd => (hds d hd).1]
  exact forall_mem_frameRuns (P := (· ≤ t)) hg.2 hh.2 fun d hd => (hds d hd).2

/-- A count above T is the length of a run before FRAME's last one. -/
theorem exists_long_run_of_count (hlong : t < g ∨ t < h ∨ ∃ d ∈ ds, t < bitCount s l d) :
    ∃ r ∈ pulseRuns g (framePulses s l h ds), t < r.length := by
  obtain hg | hlong := hlong
  · exact ⟨⟨false, g⟩, by simp [framePulses], hg⟩
  · obtain ⟨c, hc, hlt⟩ : ∃ c ∈ framePulses s l h ds, t < c := by
      obtain hh | ⟨d, hd, hlt⟩ := hlong
      · exact ⟨h, List.mem_cons_self, hh⟩
      · exact ⟨_, List.mem_cons_of_mem _ (List.mem_map_of_mem hd), hlt⟩
    exact ⟨⟨true, c⟩, List.mem_flatMap.2 ⟨c, hc, by simp⟩, hlt⟩

/-- With a count above T, acquisition stops before FRAME's last sample (30_encoding.md R81). -/
theorem acquireTrace_frameRuns_stops_early (ht : 1 ≤ t) (hg : 1 ≤ g) (hh : 1 ≤ h) (hds : ∀ d ∈ ds, 1 ≤ bitCount s l d)
    (hlong : t < g ∨ t < h ∨ ∃ d ∈ ds, t < bitCount s l d) :
    ∃ ys, acquireTrace t (runSamples (frameRuns g s l h ds)) = some ys ∧ ys <+: runSamples (frameRuns g s l h ds) ∧
      ys.length < (runSamples (frameRuns g s l h ds)).length := by
  have hruns : runTrace (runSamples (pulseRuns g (framePulses s l h ds))) = pulseRuns g (framePulses s l h ds) :=
    runTrace_runSamples (forall_mem_pulseRuns hg (forall_mem_framePulses hh hds))
      (pulseRuns_append_low_isChain g _).left_of_append
  have hlast : runSamples [⟨false, g⟩] ≠ [] := by simp [Nat.ne_of_gt hg]
  rw [frameRuns, runSamples_append]
  exact acquireTrace_stops_early ht hlast (hruns.symm ▸ exists_long_run_of_count hlong)

end frameAcquisition

/-- Settles O60: FRAME's samples are those of its runs, none longer than T or one before the last one longer; after the
former, IDLE's samples end acquisition (`wholeTrace_append_replicate`). -/
theorem frameStatementAcquisition : Obligations.FrameStatementAcquisition := by
  rintro t g s l h b0 b1 b2 b3 b4 xs ht hwf rfl
  obtain ⟨hg, hh, hds⟩ := Stmt.frame_wf_iff.1 hwf
  have hidle : assemble t [.frame g s l h b0 b1 b2 b3 b4, .idle true] =
      assemble t [.frame g s l h b0 b1 b2 b3 b4] ++ assemble t [.idle true] := assemble_append t [_] [_]
  rw [hidle, List.map_append, assemble_idle_samples, assemble_frame_samples]
  refine ⟨fun hgt hht hdst => ?_, acquireTrace_frameRuns_stops_early ht hg hh hds⟩
  have hnone := acquireTrace_frameRuns_eq_none ht ⟨hg, hgt⟩ ⟨hh, hht⟩ fun d hd => ⟨hds d hd, hdst d hd⟩
  exact ⟨hnone, wholeTrace_append_replicate ht hnone (by simp [frameRuns_getLast? hg])⟩

end Sys2Proof.Machine

/-! SUPPORT. The sequencer (40_control.md R100 to R108): the step under each condition of the operation map, `done` and
`busy`, the state after each operation, and runs of several edges. -/

namespace Sys2Proof.Machine

/-! ## The step under each condition of the operation map (30_encoding.md R71) -/

section conditions

variable {s : State}

theorem step_eq_reset (hrst : s.pins.rst = true) : step s = passEdge (exec .reset s) := by
  obtain ⟨hiff, -⟩ := operationMap.2.2 s
  exact step_eq_of_decode (hiff.2 hrst)

theorem step_eq_wait (hrst : s.pins.rst = false) (hst : s.st = .idle ∨ s.st = .done) (hstart : s.pins.start = false) :
    step s = passEdge (exec .wait s) := by
  obtain ⟨-, hiff, -⟩ := operationMap.2.2 s
  exact step_eq_of_decode (hiff.2 ⟨hrst, hst, hstart⟩)

theorem step_eq_start (hrst : s.pins.rst = false) (hst : s.st = .idle ∨ s.st = .done) (hstart : s.pins.start = true) :
    step s = passEdge (exec .start s) := by
  obtain ⟨-, -, hiff, -⟩ := operationMap.2.2 s
  exact step_eq_of_decode (hiff.2 ⟨hrst, hst, hstart⟩)

theorem step_eq_sampleFirst (hrst : s.pins.rst = false) (hst : s.st = .acquire) (hrun : s.runlen = 0) :
    step s = passEdge (exec .sampleFirst s) := by
  obtain ⟨-, -, -, hiff, -⟩ := operationMap.2.2 s
  exact step_eq_of_decode (hiff.2 ⟨hrst, hst, hrun⟩)

theorem step_eq_sampleChange (hrst : s.pins.rst = false) (hst : s.st = .acquire) (hrun : s.runlen ≠ 0)
    (hline : s.pins.line ≠ s.prev) : step s = passEdge (exec .sampleChange s) := by
  obtain ⟨-, -, -, -, hiff, -⟩ := operationMap.2.2 s
  exact step_eq_of_decode (hiff.2 ⟨hrst, hst, hrun, hline⟩)

theorem step_eq_sampleExtend (hrst : s.pins.rst = false) (hst : s.st = .acquire) (hrun : s.runlen ≠ 0)
    (hline : s.pins.line = s.prev) (ht : s.runlen ≠ s.params.t) : step s = passEdge (exec .sampleExtend s) := by
  obtain ⟨-, -, -, -, -, hiff, -⟩ := operationMap.2.2 s
  exact step_eq_of_decode (hiff.2 ⟨hrst, hst, hrun, hline, ht⟩)

theorem step_eq_illegal (hrst : s.pins.rst = false) (hst : s.st = .illegal6 ∨ s.st = .illegal7) :
    step s = passEdge (exec .illegal s) := by
  obtain ⟨-, -, -, -, -, -, -, -, -, -, hiff⟩ := operationMap.2.2 s
  exact step_eq_of_decode (hiff.2 ⟨hrst, hst⟩)

end conditions

/-- In a state other than IDLE and DONE field G is a don't-care (30_encoding.md R71). -/
theorem opOf_start_irrelevant {st : SeqState} (hidle : st ≠ .idle) (hdone : st ≠ .done) (r g g' f e h : Bool) :
    opOf r st g f e h = opOf r st g' f e h := by
  cases st with
  | idle => exact absurd rfl hidle
  | done => exact absurd rfl hdone
  | _ => rfl

/-! ## `done` and `busy` (60_exceptions.md R190) -/

theorem State.outputs_done (s : State) : s.outputs.done = decide (s.st = .done) := rfl

theorem State.outputs_busy (s : State) :
    s.outputs.busy = decide (s.st = .acquire ∨ s.st = .segment ∨ s.st = .classify ∨ s.st = .validate) :=
  s.busy_eq_decide

theorem State.ne_idle_done_of_busy {s : State} (h : s.busy = true) : s.st ≠ .idle ∧ s.st ≠ .done := by
  rw [State.busy_eq_decide, decide_eq_true_eq] at h
  obtain h | h | h | h := h <;> simp [h]

/-! ## The control operations -/

/-- Settles O12: the word matches RESET's row, and RESET's condition is `rst` alone (`step_eq_reset`). -/
theorem resetOperation : Obligations.ResetOperation := by
  refine ⟨fun w => (decode_eq_some_iff w .reset).2, fun s => ⟨rfl, step_eq_reset, fun t h => ?_⟩⟩
  obtain rfl : _ = t := Host.Outcome.next.inj h
  simp [State.outputs_done, State.outputs_busy]

/-- Settles O14: the word matches WAIT's row, and so does the edge in IDLE or DONE (`step_eq_wait`). -/
theorem waitOperation : Obligations.WaitOperation :=
  ⟨fun w => (decode_eq_some_iff w .wait).2, fun _ => ⟨rfl, fun hrst hstart hst => step_eq_wait hrst hst hstart⟩⟩

/-- Settles O15: the word matches START's row, and so does the edge in IDLE or DONE, whatever the line
(`step_eq_start`). -/
theorem startOperation : Obligations.StartOperation := by
  refine ⟨fun w => (decode_eq_some_iff w .start).2, fun s => ⟨rfl, fun hrst hstart hst => ?_, fun t h => ?_⟩⟩
  · exact step_eq_start hrst hst hstart
  · obtain rfl : _ = t := Host.Outcome.next.inj h
    simp [State.outputs_done, State.outputs_busy]

/-- Settles O16: the word matches ILLEGAL's row, and so does the edge at the two illegal codes (`step_eq_illegal`). -/
theorem illegalOperation : Obligations.IllegalOperation := by
  refine ⟨fun w => (decode_eq_some_iff w .illegal).2, fun s =>
    ⟨rfl, fun hrst hst => ⟨step_eq_illegal hrst hst, ?_⟩, fun t h => ?_⟩⟩
  · obtain hst | hst := hst <;> simp [State.outputs_done, State.outputs_busy, hst]
  · obtain rfl : _ = t := Host.Outcome.next.inj h
    simp [State.outputs_done, State.outputs_busy]

/-- Settles O42: the two edges differ in field G alone, which no busy state's operation asks for
(`opOf_start_irrelevant`). -/
theorem startIgnoredWhileBusy : Obligations.StartIgnoredWhileBusy := by
  intro s e hbusy
  obtain ⟨hidle, hdone⟩ := State.ne_idle_done_of_busy hbusy
  exact step_withEdge s _ _ (opOf_start_irrelevant hidle hdone ..) (.inl rfl)

/-! ## The state after an operation (40_control.md R105) -/

/-- SEGMENT's next state, by the trimmed trace and its high runs (42_classify.md R140). -/
theorem State.endAcquisition_transition (s : State) :
    (s.anyRun = false → s.endAcquisition.st = .done ∧ s.endAcquisition.status = .noDataError) ∧
    (s.anyRun = true → s.endAcquisition.n = 0 → s.endAcquisition.st = .validate) ∧
    (s.anyRun = true → s.endAcquisition.n ≠ 0 → s.endAcquisition.st = .classify) := by
  obtain ⟨hany, heq⟩ | ⟨hany, hn, heq⟩ | ⟨hany, hn, heq⟩ := s.endAcquisition_cases
  · simp [hany, heq, State.finish]
  · simp [hany, hn, heq]
  · simp [hany, hn, heq]

/-- Settles O40: by the operation the step selects (`step_cases`); only the rows of the table whose condition selects it
are left, and the operation's effect gives their next state. -/
theorem transitionTable : Obligations.TransitionTable := by
  intro s t h
  obtain ⟨hrst, rfl⟩ | ⟨hrst, hcase⟩ := step_cases h
  · simp [hrst]
  refine ⟨fun hr => by simp [hrst] at hr, fun _ => ?_⟩
  obtain ⟨hst, hstart, rfl⟩ | ⟨hst, hstart, rfl⟩ | ⟨hst, hrun, rfl⟩ | ⟨hst, hrun, hline, rfl⟩ |
    ⟨hst, hrun, hline, ht, rfl⟩ | ⟨hst, hrun, hline, ht, rfl⟩ | ⟨hst, rfl⟩ | ⟨hst, len, -, -, rfl⟩ | ⟨hst, rfl⟩ |
    ⟨hst, rfl⟩ := hcase
  · obtain hst | hst := hst <;> simp [hst, hstart]
  · obtain hst | hst := hst <;> simp [hst, hstart]
  · simp [hst, hrun]
  · simp [hst, hline]
  · simp [hst, ht]
  · simp [hst, hline, ← ht, hrun]
  · simpa [hst] using s.trimTail.endAcquisition_transition
  · simp +contextual [hst, State.takeBit_nextIdx, State.k]
  · simp [hst, State.finish_st]
  · obtain hst | hst := hst <;> simp [hst]

/-! ## Runs of several edges: what is left of the stimulus after one step -/

theorem State.samples_of_step {s t : State} (h : step s = .next t) (k : Nat) : t.samples k = s.nextEdge.samples k := by
  obtain ⟨-, hstim, hedge⟩ := step_modelFields h
  exact State.samples_congr hstim hedge k

theorem State.NoReset.of_step {s t : State} {k : Nat} (hn : s.NoReset (k + 1)) (h : step s = .next t) : t.NoReset k := by
  obtain ⟨-, hstim, hedge⟩ := step_modelFields h
  exact hn.succ.2.congr hstim hedge

theorem State.NoStart.succ {s : State} {m : Nat} (h : s.NoStart (m + 1)) :
    s.pins.start = false ∧ s.nextEdge.NoStart m := by
  refine ⟨by simpa using h 0 (Nat.succ_pos m), fun k hk => ?_⟩
  rw [State.pinsAt_nextEdge]
  exact h _ (Nat.succ_lt_succ hk)

/-- WAIT at every edge: in IDLE or DONE with `rst` and `start` low only the model's stimulus list and edge number move
(40_control.md R101). -/
theorem runEdges_of_wait {s : State} (hst : s.st = .idle ∨ s.st = .done) {k : Nat} (hreset : s.NoReset k)
    (hstart : s.NoStart k) : runEdges k s = .next { s with stim := s.stim.drop k, edge := s.edge + k } := by
  induction k generalizing s with
  | zero => rfl
  | succ k ih =>
    obtain ⟨hrst, hreset⟩ := hreset.succ
    obtain ⟨hgo, hstart⟩ := hstart.succ
    have hstep : step s = .next s.nextEdge := step_eq_wait hrst hst hgo
    rw [runEdges_succ_of_step hstep, ih (s := s.nextEdge) hst hreset hstart]
    simp [State.nextEdge, Nat.add_assoc, Nat.add_comm 1 k]

/-- Settles O47: every edge is a WAIT (`runEdges_of_wait`). -/
theorem doneIsQuiescent : Obligations.DoneIsQuiescent :=
  fun _ _ hst => runEdges_of_wait (.inr hst)

/-! ## ACQUIRE with no stopping sample (40_control.md R108) -/

/-- ACQUIRE in a legal build, with a run open whose unchanged count (41_acquire.md R121) is `u`, still below T. -/
structure State.InRun (s : State) (u : Nat) : Prop where
  legal : s.params.legal = true
  st : s.st = .acquire
  runlen : s.runlen = u + 1
  count : u < s.params.t

/-- Acquisition goes on past the sample `x` where `x` does not take the unchanged count to T (41_acquire.md R121). -/
theorem acquireFrom_cons_eq_none {t : Nat} {p : Bool} {u : Nat} {x : Bool} {xs : List Bool} :
    acquireFrom t p u (x :: xs) = none ↔
      if x = p then u + 1 ≠ t ∧ acquireFrom t p (u + 1) xs = none else acquireFrom t x 0 xs = none := by
  simp only [acquireFrom]
  split
  · split <;> simp [*]
  · simp

/-- A run just opened has unchanged count 0 (41_acquire.md R122, R123). -/
theorem State.inRun_openRun {s : State} (hlegal : s.params.legal = true) (hst : s.st = .acquire) :
    s.openRun.nextEdge.InRun 0 where
  legal := hlegal
  st := hst
  runlen := narrow_runW_one hlegal
  count := (Params.legal_t hlegal).1

/-- One sample that is not the stopping one: SAMPLE_EXTEND or SAMPLE_CHANGE, after which a run is open and the samples to
come are unsettled as before. -/
theorem State.InRun.step_unsettled {s : State} {u : Nat} {xs : List Bool} (h : s.InRun u) (hrst : s.pins.rst = false)
    (hacq : acquireFrom s.params.t s.prev u (s.pins.line :: xs) = none) :
    ∃ t v, step s = .next t ∧ t.InRun v ∧ acquireFrom s.params.t t.prev v xs = none := by
  obtain ⟨hlegal, hst, hrun, hcount⟩ := h
  have hopen : s.runlen ≠ 0 := by omega
  rw [acquireFrom_cons_eq_none] at hacq
  split at hacq
  · next hline =>
    obtain ⟨hstop, hacq⟩ := hacq
    have hfits : s.runlen + 1 < 2 ^ s.params.runW := by
      have := Params.legal_t hlegal
      omega
    have hstep : step s = .next (s.setRunlen (s.runlen + 1)).nextEdge :=
      step_eq_sampleExtend hrst hst hopen hline (by omega)
    refine ⟨_, u + 1, hstep, ⟨hlegal, hst, ?_, ?_⟩, hacq⟩
    · exact (narrow_of_lt hfits).trans (congrArg (· + 1) hrun)
    · exact Nat.lt_of_le_of_ne hcount hstop
  · next hline =>
    have hstep : step s = .next (s.closeRun s.prev s.runlen).openRun.nextEdge :=
      step_eq_sampleChange hrst hst hopen hline
    exact ⟨_, 0, hstep, State.inRun_openRun (by simpa using hlegal) (by simpa using hst), by simpa using hacq⟩

/-- With a run open, the block stays in ACQUIRE over samples none of which is the stopping one. -/
theorem State.InRun.runEdges_unsettled {s : State} {u k : Nat} (h : s.InRun u) (hreset : s.NoReset k)
    (hacq : acquireFrom s.params.t s.prev u (s.samples k) = none) : ∃ t, runEdges k s = .next t ∧ t.st = .acquire := by
  induction k generalizing s u with
  | zero => exact ⟨s, rfl, h.st⟩
  | succ k ih =>
    rw [State.samples_succ] at hacq
    obtain ⟨t, v, hstep, hrun, hacq⟩ := h.step_unsettled hreset.succ.1 hacq
    rw [runEdges_succ_of_step hstep]
    refine ih hrun (hreset.of_step hstep) ?_
    rwa [(step_modelFields hstep).1, State.samples_of_step hstep]

/-- Settles O48: the first sample opens a run (SAMPLE_FIRST), and from then on `State.InRun.runEdges_unsettled`. -/
theorem unsettledLineStaysInAcquire : Obligations.UnsettledLineStaysInAcquire := by
  intro s k hfresh hreset hacq
  cases k with
  | zero => exact ⟨s, rfl, hfresh.st⟩
  | succ k =>
    have hstep : step s = .next s.openRun.nextEdge := step_eq_sampleFirst hreset.succ.1 hfresh.st hfresh.runlen
    rw [State.samples_succ, ← State.samples_of_step hstep, acquireTrace, Option.map_eq_none_iff] at hacq
    rw [runEdges_succ_of_step hstep]
    exact (State.inRun_openRun hfresh.legal hfresh.st).runEdges_unsettled (hreset.of_step hstep) hacq

end Sys2Proof.Machine

/-! SUPPORT. The four sample operations (41_acquire.md R122 to R125): each one's effect in a legal build, what it leaves,
and the line that no other operation samples (R120). -/

namespace Sys2Proof.Machine

/-- A run opens with one sample, which `runlen` holds in every legal build (41_acquire.md R122). -/
theorem State.openRun_eq {s : State} (hlegal : s.params.legal = true) :
    s.openRun = { s with prev := s.pins.line, runlen := 1 } := by
  simp only [State.openRun, State.setRunlen, narrow_runW_one hlegal]

/-- A run of at most T samples takes one more without wrapping (41_acquire.md R124, R125). -/
theorem State.setRunlen_succ_eq {s : State} (hlegal : s.params.legal = true) (hrun : s.runlen ≤ s.params.t) :
    s.setRunlen (s.runlen + 1) = { s with runlen := s.runlen + 1 } := by
  have hfits : s.runlen + 1 < 2 ^ s.params.runW := by
    have := Params.legal_t hlegal
    omega
  simp only [State.setRunlen, narrow_of_lt hfits]

/-- Settles O17: the word matches SAMPLE_FIRST's row, and the run it opens is `State.openRun_eq`. -/
theorem sampleFirstOperation : Obligations.SampleFirstOperation :=
  ⟨fun w => (decode_eq_some_iff w .sampleFirst).2, fun _ hlegal => congrArg Host.Outcome.next (State.openRun_eq hlegal)⟩

/-- Settles O18: the word matches SAMPLE_CHANGE's row; the run closed is low (`State.closeRun_low`) or high, where no write
wraps (`State.closeRun_high_fits`). -/
theorem sampleChangeOperation : Obligations.SampleChangeOperation := by
  refine ⟨fun w => (decode_eq_some_iff w .sampleChange).2, fun s hlegal hwidths => ?_⟩
  have hexec : exec .sampleChange s = .next (s.closeRun s.prev s.runlen).openRun := rfl
  rw [hexec, State.openRun_eq (by simpa using hlegal), State.closeRun_pins]
  refine ⟨fun hprev => ?_, fun hprev => ?_⟩
  · rw [hprev, State.closeRun_low]
  · rw [hprev, State.closeRun_high_fits hlegal hwidths hwidths.runlen]

/-- Settles O19: the word matches SAMPLE_EXTEND's row; with T = 1 its condition asks for a run of neither 0 nor 1 samples,
and the invariant bounds the run by T. -/
theorem sampleExtendOperation : Obligations.SampleExtendOperation := by
  refine ⟨fun w => (decode_eq_some_iff w .sampleExtend).2, fun s hlegal hrun => ?_, fun s hinv ht hdecode => ?_⟩
  · exact congrArg Host.Outcome.next (State.setRunlen_succ_eq hlegal (Nat.le_of_lt hrun))
  · obtain ⟨-, -, -, -, -, hiff, -⟩ := operationMap.2.2 s
    obtain ⟨-, hst, hopen, -, hne⟩ := hiff.1 hdecode
    have hle := hinv.acquireRun hst
    omega

/-- Settles O20: the word matches SAMPLE_STOP's row; the run of T samples takes the stopping one
(`State.setRunlen_succ_eq`). -/
theorem sampleStopOperation : Obligations.SampleStopOperation := by
  refine ⟨fun w => (decode_eq_some_iff w .sampleStop).2, fun s hlegal hrun => ?_⟩
  have hexec : exec .sampleStop s = .next { s.setRunlen (s.runlen + 1) with st := .segment } := rfl
  rw [hexec, State.setRunlen_succ_eq hlegal hrun.le, hrun]

/-- Settles O21: by the operation's effect (`exec_next`), of which a low run closed by SAMPLE_CHANGE is the one case that
needs the level (`State.closeRun_low`). -/
theorem sampleOperationsFrame : Obligations.SampleOperationsFrame := by
  rintro i s t (rfl | rfl | rfl | rfl) h
  · obtain rfl : t = s.openRun := by simpa using exec_next h
    simp
  · obtain rfl : t = (s.closeRun s.prev s.runlen).openRun := by simpa using exec_next h
    simp +contextual [State.closeRun_low]
  · obtain rfl : t = s.setRunlen (s.runlen + 1) := by simpa using exec_next h
    simp
  · obtain rfl : t = { s.setRunlen (s.runlen + 1) with st := .segment } := by simpa using exec_next h
    simp

/-- Outside ACQUIRE field E is a don't-care (30_encoding.md R71). -/
theorem opOf_line_irrelevant {st : SeqState} (hst : st ≠ .acquire) (r g f e e' h : Bool) :
    opOf r st g f e h = opOf r st g f e' h := by
  cases st with
  | acquire => exact absurd rfl hst
  | _ => rfl

/-- Outside ACQUIRE neither of the operations that store the sample is selected (30_encoding.md R71). -/
theorem opOf_ne_sample {st : SeqState} (hst : st ≠ .acquire) (r g f e h : Bool) :
    opOf r st g f e h ≠ .sampleFirst ∧ opOf r st g f e h ≠ .sampleChange := by
  obtain ⟨-, -, -, hfirst, hchange, -⟩ := opOf_eq_iff r st g f e h
  simp [hfirst, hchange, hst]

/-- Settles O43: the two edges differ in the line alone, which neither the selection (`opOf_line_irrelevant`) nor the
selected operation (`opOf_ne_sample`) asks for. -/
theorem lineIgnoredOutsideAcquire : Obligations.LineIgnoredOutsideAcquire :=
  fun s _ _ _ hst => step_withEdge s _ _ (opOf_line_irrelevant hst ..) (.inr (opOf_ne_sample hst ..))

end Sys2Proof.Machine

/-! SUPPORT. The RunTrace of a sample sequence (41_acquire.md R127, R130), and the trimmed trace of a read (R126, R128). -/

namespace Sys2Proof.Machine

/-- One more sample in front: it opens a run before one of the other level, or lengthens the first run (41_acquire.md
R127). -/
theorem runTrace_cons_cases (x : Bool) (xs : List Bool) :
    ((∀ r ∈ (runTrace xs).head?, x ≠ r.level) ∧ runTrace (x :: xs) = ⟨x, 1⟩ :: runTrace xs) ∨
    ∃ n rs, runTrace xs = ⟨x, n⟩ :: rs ∧ runTrace (x :: xs) = ⟨x, n + 1⟩ :: rs := by
  rw [runTrace_cons]
  cases hr : runTrace xs with
  | nil => simp
  | cons r rs =>
    by_cases hlevel : r.level = x
    · exact .inr ⟨r.length, rs, by rw [← hlevel], by simp [hlevel]⟩
    · exact .inl (by simp [hlevel, Ne.symm hlevel])

/-- The RunTrace rebuilds the samples it was cut from (41_acquire.md R130). -/
theorem runSamples_runTrace (xs : List Bool) : runSamples (runTrace xs) = xs := by
  induction xs with
  | nil => rfl
  | cons x xs ih =>
    obtain ⟨-, heq⟩ | ⟨n, rs, hr, heq⟩ := runTrace_cons_cases x xs
    · simp [heq, ih]
    · rw [hr, runSamples_cons] at ih
      simp [heq, List.replicate_succ, ih]

theorem runTrace_length_pos (xs : List Bool) : ∀ r ∈ runTrace xs, 1 ≤ r.length := by
  induction xs with
  | nil => simp [runTrace]
  | cons x xs ih =>
    obtain ⟨-, heq⟩ | ⟨n, rs, hr, heq⟩ := runTrace_cons_cases x xs <;> rw [heq]
    · exact List.forall_mem_cons.2 ⟨Nat.le_refl 1, ih⟩
    · rw [hr, List.forall_mem_cons] at ih
      exact List.forall_mem_cons.2 ⟨Nat.le_add_left 1 n, ih.2⟩

/-- Adjacent runs have different levels (41_acquire.md R127). -/
theorem runTrace_isChain (xs : List Bool) : (runTrace xs).IsChain fun a b => a.level ≠ b.level := by
  induction xs with
  | nil => exact .nil
  | cons x xs ih =>
    obtain ⟨hhead, heq⟩ | ⟨n, rs, hr, heq⟩ := runTrace_cons_cases x xs <;> rw [heq]
    · exact List.isChain_cons.2 ⟨hhead, ih⟩
    · rw [hr] at ih
      exact List.isChain_cons.2 (List.isChain_cons.1 ih)

/-- Settles O54: the three properties by induction over the samples, the uniqueness by `runTrace_runSamples`. -/
theorem runTraceIsUnique : Obligations.RunTraceIsUnique := by
  refine ⟨fun xs => ⟨runSamples_runTrace xs, runTrace_length_pos xs, runTrace_isChain xs, ?_⟩, fun x => rfl⟩
  rintro rs rfl hpos halt
  exact (runTrace_runSamples hpos halt).symm

theorem runSamples_length (rs : List Run) : (runSamples rs).length = (rs.map (·.length)).sum := by
  simp [runSamples, List.length_flatMap]

/-- Settles O55: both laws are of the samples rebuilt from the runs (`runSamples_runTrace`). -/
theorem segmenterLaws : Obligations.SegmenterLaws := by
  intro xs
  rw [← runSamples_length, runSamples_runTrace]
  exact ⟨rfl, rfl⟩

/-- Where the samples still to come are exactly the rest of a read (41_acquire.md R121). -/
theorem acquireFrom_cons_eq_self {t : Nat} {p : Bool} {u : Nat} {x : Bool} {xs : List Bool} :
    acquireFrom t p u (x :: xs) = some (x :: xs) ↔
      if x = p then (if u + 1 = t then xs = [] else acquireFrom t p (u + 1) xs = some xs)
      else acquireFrom t x 0 xs = some xs := by
  simp only [acquireFrom]
  split
  · split <;> simp [eq_comm]
  · simp

theorem wholeTrace_iff {t : Nat} {xs : List Bool} : wholeTrace t xs = true ↔ acquireTrace t xs = some xs := by
  simp [wholeTrace]

theorem wholeTrace_cons_iff {t : Nat} {x : Bool} {xs : List Bool} :
    wholeTrace t (x :: xs) = true ↔ acquireFrom t x 0 xs = some xs := by
  simp [wholeTrace_iff, acquireTrace]

/-- One more equal sample lengthens the open run. -/
theorem append_replicate_append_cons (ys : List Bool) (n : Nat) (p : Bool) (xs : List Bool) :
    ys ++ List.replicate n p ++ p :: xs = ys ++ List.replicate (n + 1) p ++ xs := by
  simp [List.replicate_succ']

theorem getLast?_append_replicate (ys : List Bool) {n : Nat} (hn : 1 ≤ n) (p : Bool) :
    (ys ++ List.replicate n p).getLast? = some p := by
  simp [List.getLast?_append, List.getLast?_replicate, Nat.ne_of_gt hn]

/-- The rest of a read that stands at `u + 1` samples of level `p` after the samples `ys` ends it in T + 1 equal samples
(41_acquire.md R126). -/
theorem acquireFrom_self_settles {t : Nat} {p : Bool} {u : Nat} {xs : List Bool}
    (h : acquireFrom t p u xs = some xs) {ys : List Bool} (hys : ys.getLast? ≠ some p) :
    ∃ ws b, ys ++ List.replicate (u + 1) p ++ xs = ws ++ List.replicate (t + 1) b ∧ ws.getLast? ≠ some b := by
  induction xs generalizing p u ys with
  | nil => simp [acquireFrom] at h
  | cons x xs ih =>
    rw [acquireFrom_cons_eq_self] at h
    split at h
    · next hx =>
      rw [hx, append_replicate_append_cons]
      split at h
      · next hu => exact ⟨ys, p, by rw [h, hu, List.append_nil], hys⟩
      · exact ih h hys
    · next hx =>
      have hlast : (ys ++ List.replicate (u + 1) p).getLast? ≠ some x := by
        rw [getLast?_append_replicate ys (Nat.le_add_left 1 u)]
        simpa [eq_comm] using hx
      simpa using ih h hlast

/-- A read's samples end in T + 1 equal ones, and no more (41_acquire.md R126). -/
theorem wholeTrace_settles {t : Nat} {xs : List Bool} (h : wholeTrace t xs = true) :
    ∃ ws b, xs = ws ++ List.replicate (t + 1) b ∧ ws.getLast? ≠ some b := by
  cases xs with
  | nil => simp [wholeTrace, acquireTrace] at h
  | cons x xs => exact acquireFrom_self_settles (ys := []) (wholeTrace_cons_iff.1 h) (by simp)

/-- The trimming of a read's T + 1 last samples (41_acquire.md R126). -/
theorem trimTrace_append_replicate (p : Params) (ws : List Bool) (b : Bool) :
    trimTrace p (ws ++ List.replicate (p.t + 1) b) =
      match p.trim with
      | .wholeRun => ws
      | .tSamples => ws ++ [b] := by
  have hlen : (ws ++ List.replicate (p.t + 1) b).length = ws.length + 1 + p.t := by
    rw [List.length_append, List.length_replicate]
    omega
  rw [trimTrace, hlen, Nat.add_sub_cancel]
  cases p.trim with
  | wholeRun => simp
  | tSamples => simp [List.take_append, List.replicate_succ]

/-- Acquisition does not stop before the last sample of a read (41_acquire.md R121). -/
theorem acquireTrace_eq_none_of_wholeTrace {t : Nat} {xs : List Bool} {x : Bool}
    (h : wholeTrace t (xs ++ [x]) = true) : acquireTrace t xs = none := by
  refine Option.eq_none_iff_forall_not_mem.2 fun ys hys => ?_
  have hle := (acquireTrace_prefix hys).length_le
  obtain rfl : ys = xs ++ [x] := by
    simpa [wholeTrace_iff.1 h, eq_comm] using acquireTrace_append (zs := [x]) hys
  simp at hle

/-- The runs before the last T + 1 samples of a read have at most T samples each (41_acquire.md R128). -/
theorem runTrace_le_of_wholeTrace {t : Nat} (ht : 1 ≤ t) {ws : List Bool} {b : Bool}
    (h : wholeTrace t (ws ++ List.replicate (t + 1) b) = true) (hws : ws.getLast? ≠ some b) :
    ∀ r ∈ runTrace ws, r.length ≤ t := by
  rw [List.replicate_succ', ← List.append_assoc] at h
  have hshort := (acquireTrace_eq_none_iff ht _).1 (acquireTrace_eq_none_of_wholeTrace h)
  rw [runTrace_append (.inl (by simpa [List.head?_replicate, Nat.ne_of_gt ht] using hws))] at hshort
  exact (List.forall_mem_append.1 hshort).1

/-- Settles O56: the last samples by `wholeTrace_settles`, the runs before them by `runTrace_le_of_wholeTrace`; under
T_SAMPLES one run of a single sample is added. -/
theorem trimmedRunsWithinThreshold : Obligations.TrimmedRunsWithinThreshold := by
  intro p xs hlegal h
  obtain ⟨ht, -⟩ := Params.legal_t hlegal
  obtain ⟨ws, b, rfl, hws⟩ := wholeTrace_settles h
  have hle := runTrace_le_of_wholeTrace ht h hws
  have htrim := trimTrace_append_replicate p ws b
  refine ⟨⟨ws, b, rfl, hws, htrim⟩, fun r hr => ⟨runTrace_length_pos _ r hr, ?_⟩⟩
  rw [htrim] at hr
  cases hp : p.trim with
  | wholeRun => exact hle r (by simpa only [hp] using hr)
  | tSamples =>
    rw [hp, runTrace_append (ys := [b]) (.inl hws), List.mem_append] at hr
    obtain hr | hr := hr
    · exact hle r hr
    · obtain rfl : r = ⟨b, 1⟩ := by simpa [runTrace] using hr
      exact ht

end Sys2Proof.Machine

/-! SUPPORT. One-pass equivalence (41_acquire.md R129): the registers of a read through ACQUIRE and SEGMENT, against the
two-pass definitions over its samples. -/

namespace Sys2Proof.Machine

/-! ## The two-pass definitions as one more run is appended -/

theorem minLen_append_singleton {p : Params} {len : Nat} (hlen : len ≤ p.all1) (hs : List Nat) :
    minLen p (hs ++ [len]) = min (minLen p hs) len := by
  cases hs with
  | nil => simp [minLen, hlen]
  | cons h hs =>
    simp only [minLen, List.cons_append, List.min?_cons', List.foldl_append]
    rfl

theorem maxLen_append_singleton (hs : List Nat) (len : Nat) : maxLen (hs ++ [len]) = max (maxLen hs) len := by
  cases hs with
  | nil => simp [maxLen]
  | cons h hs =>
    simp only [maxLen, List.cons_append, List.max?_cons', List.foldl_append]
    rfl

/-- The least HighRun length is one of theirs (41_acquire.md R129). -/
theorem minLen_isLeast (p : Params) {hs : List Nat} (hne : hs ≠ []) :
    minLen p hs ∈ hs ∧ ∀ h ∈ hs, minLen p hs ≤ h := by
  obtain ⟨a, ha⟩ := Option.ne_none_iff_exists'.1 (mt List.min?_eq_none_iff.1 hne)
  rw [minLen, ha]
  exact List.min?_eq_some_iff.1 ha

/-- The greatest HighRun length is one of theirs (41_acquire.md R129). -/
theorem maxLen_isGreatest {hs : List Nat} (hne : hs ≠ []) : maxLen hs ∈ hs ∧ ∀ h ∈ hs, h ≤ maxLen hs := by
  obtain ⟨a, ha⟩ := Option.ne_none_iff_exists'.1 (mt List.max?_eq_none_iff.1 hne)
  rw [maxLen, ha]
  exact List.max?_eq_some_iff.1 ha

/-- The HighRuns after one more run of the other level. -/
theorem highRuns_append_run {ys : List Bool} {level : Bool} (hys : ys.getLast? ≠ some level) {len : Nat}
    (hpos : 1 ≤ len) :
    highRuns (ys ++ List.replicate len level) = highRuns ys ++ if level then [len] else [] := by
  rw [highRuns_append (.inl (by simpa [List.head?_replicate, Nat.ne_of_gt hpos] using hys)), highRuns_replicate _ hpos]

/-! ## The registers of the runs closed so far -/

/-- In a legal build, the registers of a read hold what the two-pass definitions give from the samples `ys` of the runs
closed so far (41_acquire.md R129), and no data bit is in `sr` yet. -/
structure State.Recorded (s : State) (ys : List Bool) : Prop where
  legal : s.params.legal = true
  widths : s.Widths
  anyRun : s.anyRun = true ↔ ys ≠ []
  n : s.n = min (highRuns ys).length s.params.nmax
  hrbuf : ∀ i < min (highRuns ys).length 41, s.hrbuf.read i = (highRuns ys)[i]?
  mn : s.mn = minLen s.params (highRuns ys)
  mx : s.mx = maxLen (highRuns ys)
  sr : s.sr = 0#40

/-- START leaves the registers of no run (40_control.md R102). -/
theorem State.FreshRead.recorded {s : State} (h : s.FreshRead) : s.Recorded [] where
  legal := h.legal
  widths :=
    { runlen := h.runlen ▸ Nat.two_pow_pos _
      n := h.n ▸ Nat.two_pow_pos _
      mn := h.mn ▸ s.params.all1_lt
      mx := h.mx ▸ Nat.two_pow_pos _ }
  anyRun := by simp [h.anyRun]
  n := by simp [h.n, highRuns, runTrace]
  hrbuf := by simp [highRuns, runTrace]
  mn := h.mn
  mx := h.mx
  sr := h.sr

theorem State.Recorded.openRun {s : State} {ys : List Bool} (h : s.Recorded ys) : s.openRun.Recorded ys :=
  { h with widths := { h.widths with runlen := narrow_lt _ 1 } }

theorem State.Recorded.setRunlen {s : State} {ys : List Bool} (h : s.Recorded ys) (v : Nat) :
    (s.setRunlen v).Recorded ys :=
  { h with widths := { h.widths with runlen := narrow_lt _ v } }

theorem State.Recorded.nextEdge {s : State} {ys : List Bool} (h : s.Recorded ys) : s.nextEdge.Recorded ys :=
  { h with widths := { h.widths with } }

theorem State.Recorded.set_st {s : State} {ys : List Bool} (h : s.Recorded ys) (q : SeqState) :
    ({ s with st := q } : State).Recorded ys :=
  { h with widths := { h.widths with } }

/-- The entries of HRBUF after a high run is closed: the new one at `n` while `n < 41`, and those before it
(00_scope.md R11). -/
theorem State.Recorded.hrbuf_closeRun {s : State} {ys : List Bool} (h : s.Recorded ys) {len : Nat}
    (hfits : len < 2 ^ s.params.runW) {i : Nat} (hi : i < min ((highRuns ys).length + 1) 41) :
    (s.closeRun true len).hrbuf.read i = (highRuns ys ++ [len])[i]? := by
  have hn := h.n
  have hnmax := Params.legal_nmax h.legal
  have hstored : s.closeRunIndex true = some i ↔ i = (highRuns ys).length := by
    simp only [State.closeRunIndex_eq_some_iff, and_true]
    omega
  rw [State.closeRun_read, narrow_of_lt hfits]
  split
  · next hidx => simp [hstored.1 hidx]
  · next hidx =>
    have hlt : i < (highRuns ys).length := by
      have := mt hstored.2 hidx
      omega
    rw [h.hrbuf i (by omega), List.getElem?_append_left hlt]

section closeRun

variable {s : State} {ys : List Bool} {len : Nat}

theorem State.Recorded.closeRun_low (h : s.Recorded ys) (hys : ys.getLast? ≠ some false) (hpos : 1 ≤ len) :
    (s.closeRun false len).Recorded (ys ++ List.replicate len false) := by
  have hhigh : highRuns (ys ++ List.replicate len false) = highRuns ys := by simpa using highRuns_append_run hys hpos
  have hany : ys ++ List.replicate len false ≠ [] := by simp [Nat.ne_of_gt hpos]
  obtain ⟨hlegal, hwidths, -, hn, hhrbuf, hmn, hmx, hsr⟩ := h
  rw [← hhigh] at hn hhrbuf hmn hmx
  exact ⟨hlegal, hwidths.closeRun false len, iff_of_true rfl hany, hn, hhrbuf, hmn, hmx, hsr⟩

theorem State.Recorded.closeRun_high (h : s.Recorded ys) (hys : ys.getLast? ≠ some true) (hpos : 1 ≤ len)
    (hle : len ≤ s.params.t) : (s.closeRun true len).Recorded (ys ++ List.replicate len true) := by
  have ht := Params.legal_t h.legal
  have hfits : len < 2 ^ s.params.runW := by omega
  have heq := State.closeRun_high_fits h.legal h.widths hfits
  have hhigh : highRuns (ys ++ List.replicate len true) = highRuns ys ++ [len] := highRuns_append_run hys hpos
  have hany : ys ++ List.replicate len true ≠ [] := by simp [Nat.ne_of_gt hpos]
  have hn : (s.closeRun true len).n = min (highRuns ys ++ [len]).length s.params.nmax := by
    have := h.n
    rw [heq, List.length_append, List.length_singleton]
    dsimp only
    split <;> omega
  have hmn : (s.closeRun true len).mn = minLen s.params (highRuns ys ++ [len]) := by
    rw [minLen_append_singleton (by omega), ← h.mn, heq]
  have hmx : (s.closeRun true len).mx = maxLen (highRuns ys ++ [len]) := by
    rw [maxLen_append_singleton, ← h.mx, heq]
  constructor
  case legal => simpa using h.legal
  case widths => exact h.widths.closeRun true len
  case anyRun => exact iff_of_true (s.closeRun_anyRun true len) hany
  case hrbuf =>
    rw [hhigh, List.length_append]
    exact fun i hi => h.hrbuf_closeRun hfits hi
  case n => rw [hhigh, hn, State.closeRun_params]
  case mn => rw [hhigh, hmn, State.closeRun_params]
  case mx => rw [hhigh, hmx]
  case sr => simpa using h.sr

/-- `close_run` of a run of 1..T samples records it (00_scope.md R11). -/
theorem State.Recorded.closeRun (h : s.Recorded ys) {level : Bool} (hys : ys.getLast? ≠ some level) (hpos : 1 ≤ len)
    (hle : len ≤ s.params.t) : (s.closeRun level len).Recorded (ys ++ List.replicate len level) := by
  cases level with
  | false => exact h.closeRun_low hys hpos
  | true => exact h.closeRun_high hys hpos hle

end closeRun

/-! ## ACQUIRE, edge by edge -/

/-- ACQUIRE after the samples `ys` of closed runs and `u + 1` samples of the open one, at the level `prev`. -/
structure State.Acquired (s : State) (ys : List Bool) (u : Nat) : Prop where
  inRun : s.InRun u
  recorded : s.Recorded ys
  boundary : ys.getLast? ≠ some s.prev

/-- SEGMENT at its edge after a read of the samples `ys` and the T + 1 samples of the final run, at the level `prev`
(41_acquire.md R125). -/
structure State.Settled (s : State) (ys : List Bool) : Prop where
  st : s.st = .segment
  runlen : s.runlen = s.params.t + 1
  recorded : s.Recorded ys
  boundary : ys.getLast? ≠ some s.prev

theorem step_eq_sampleStop {s : State} (hrst : s.pins.rst = false) (hst : s.st = .acquire) (hrun : s.runlen ≠ 0)
    (hline : s.pins.line = s.prev) (ht : s.runlen = s.params.t) : step s = passEdge (exec .sampleStop s) := by
  obtain ⟨-, -, -, -, -, -, hiff, -⟩ := operationMap.2.2 s
  exact step_eq_of_decode (hiff.2 ⟨hrst, hst, hrun, hline, ht⟩)

theorem step_eq_segment {s : State} (hrst : s.pins.rst = false) (hst : s.st = .segment) :
    step s = passEdge (exec .segment s) := by
  obtain ⟨-, -, -, -, -, -, -, hiff, -⟩ := operationMap.2.2 s
  exact step_eq_of_decode (hiff.2 ⟨hrst, hst⟩)

section edges

variable {s : State} {ys : List Bool} {u : Nat}

/-- The first sample opens the first run (41_acquire.md R122). -/
theorem State.FreshRead.acquired (h : s.FreshRead) : s.openRun.nextEdge.Acquired [] 0 where
  inRun := State.inRun_openRun h.legal h.st
  recorded := h.recorded.openRun.nextEdge
  boundary := by simp

/-- The samples of the open run, with one more counted (41_acquire.md R124, R125). -/
theorem State.Acquired.setRunlen_runlen (h : s.Acquired ys u) : (s.setRunlen (s.runlen + 1)).runlen = u + 2 := by
  obtain ⟨hlegal, -, hrun, hcount⟩ := h.inRun
  rw [State.setRunlen_succ_eq hlegal (by omega), hrun]

/-- SAMPLE_EXTEND: an equal sample that is not the stopping one (41_acquire.md R124). -/
theorem State.Acquired.step_extend (h : s.Acquired ys u) (hrst : s.pins.rst = false) (hline : s.pins.line = s.prev)
    (hcount : u + 1 ≠ s.params.t) : ∃ t, step s = .next t ∧ t.Acquired ys (u + 1) ∧ t.prev = s.prev := by
  obtain ⟨hlegal, hst, hrun, hlt⟩ := h.inRun
  have hstep : step s = .next (s.setRunlen (s.runlen + 1)).nextEdge :=
    step_eq_sampleExtend hrst hst (by omega) hline (by omega)
  have hinRun : (s.setRunlen (s.runlen + 1)).nextEdge.InRun (u + 1) :=
    ⟨hlegal, hst, h.setRunlen_runlen, Nat.lt_of_le_of_ne hlt hcount⟩
  exact ⟨_, hstep, ⟨hinRun, (h.recorded.setRunlen _).nextEdge, h.boundary⟩, rfl⟩

/-- SAMPLE_STOP: the equal sample at which the unchanged count reaches T (41_acquire.md R125). -/
theorem State.Acquired.step_stop (h : s.Acquired ys u) (hrst : s.pins.rst = false) (hline : s.pins.line = s.prev)
    (hcount : u + 1 = s.params.t) : ∃ t, step s = .next t ∧ t.Settled ys ∧ t.prev = s.prev := by
  obtain ⟨hlegal, hst, hrun, hlt⟩ := h.inRun
  have hstep : step s = .next { s.setRunlen (s.runlen + 1) with st := .segment }.nextEdge :=
    step_eq_sampleStop hrst hst (by omega) hline (by omega)
  have hlong : (s.setRunlen (s.runlen + 1)).runlen = s.params.t + 1 := by rw [h.setRunlen_runlen, ← hcount]
  exact ⟨_, hstep, ⟨rfl, hlong, ((h.recorded.setRunlen _).set_st .segment).nextEdge, h.boundary⟩, rfl⟩

/-- SAMPLE_CHANGE: a sample of the other level closes the open run (41_acquire.md R123). -/
theorem State.Acquired.step_change (h : s.Acquired ys u) (hrst : s.pins.rst = false) (hline : s.pins.line ≠ s.prev) :
    ∃ t, step s = .next t ∧ t.Acquired (ys ++ List.replicate (u + 1) s.prev) 0 ∧ t.prev = s.pins.line := by
  obtain ⟨hlegal, hst, hrun, hlt⟩ := h.inRun
  have hstep : step s = .next (s.closeRun s.prev s.runlen).openRun.nextEdge :=
    step_eq_sampleChange hrst hst (by omega) hline
  have hrec := h.recorded.closeRun h.boundary (len := s.runlen) (by omega) (by omega)
  rw [hrun] at hrec hstep
  refine ⟨_, hstep, ⟨State.inRun_openRun hrec.legal (by simpa using hst), hrec.openRun.nextEdge, ?_⟩, by simp⟩
  rw [getLast?_append_replicate ys (Nat.le_add_left 1 u)]
  simpa [eq_comm] using hline

/-- From a state in ACQUIRE, over exactly the rest of a read's samples, the block reaches SEGMENT's edge with every run
before the final T + 1 samples recorded. -/
theorem State.Acquired.runEdges_settled {k : Nat} (h : s.Acquired ys u) (hreset : s.NoReset k)
    (hacq : acquireFrom s.params.t s.prev u (s.samples k) = some (s.samples k)) :
    ∃ t ws, runEdges k s = .next t ∧ t.Settled ws ∧
      ys ++ List.replicate (u + 1) s.prev ++ s.samples k = ws ++ List.replicate (s.params.t + 1) t.prev := by
  induction k generalizing s ys u with
  | zero => simp [State.samples, acquireFrom] at hacq
  | succ k ih =>
    rw [State.samples_succ] at hacq ⊢
    rw [acquireFrom_cons_eq_self] at hacq
    split at hacq
    · next hline =>
      rw [hline, append_replicate_append_cons]
      split at hacq
      · next hcount =>
        obtain ⟨t, hstep, hsettled, hprev⟩ := h.step_stop hreset.succ.1 hline hcount
        obtain rfl : k = 0 := by simpa [State.samples_length] using congrArg List.length hacq
        exact ⟨t, ys, by rw [runEdges_succ_of_step hstep, runEdges_zero], hsettled, by simp [hacq, hprev, hcount]⟩
      · next hcount =>
        obtain ⟨t, hstep, hacquired, hprev⟩ := h.step_extend hreset.succ.1 hline hcount
        obtain ⟨hparams, -⟩ := step_modelFields hstep
        rw [runEdges_succ_of_step hstep, ← hparams, ← hprev, ← State.samples_of_step hstep]
        refine ih hacquired (hreset.of_step hstep) ?_
        rwa [hparams, hprev, State.samples_of_step hstep]
    · next hline =>
      obtain ⟨t, hstep, hacquired, hprev⟩ := h.step_change hreset.succ.1 hline
      obtain ⟨hparams, -⟩ := step_modelFields hstep
      rw [runEdges_succ_of_step hstep, ← hparams, ← hprev, ← State.samples_of_step hstep]
      obtain ⟨v, ws, hrun, hsettled, heq⟩ := ih hacquired (hreset.of_step hstep)
        (by rwa [hparams, hprev, State.samples_of_step hstep])
      exact ⟨v, ws, hrun, hsettled, by simpa using heq⟩

end edges

/-- A read from its start to SEGMENT's edge: the samples up to the final T + 1 equal ones are recorded (41_acquire.md
R121, R129). -/
theorem State.FreshRead.runEdges_settled {s : State} {m : Nat} (h : s.FreshRead) (hreset : s.NoReset m)
    (hwhole : wholeTrace s.params.t (s.samples m) = true) :
    ∃ t ws, runEdges m s = .next t ∧ t.Settled ws ∧ s.samples m = ws ++ List.replicate (s.params.t + 1) t.prev := by
  cases m with
  | zero => simp [State.samples, wholeTrace, acquireTrace] at hwhole
  | succ k =>
    have hstep : step s = .next s.openRun.nextEdge := step_eq_sampleFirst hreset.succ.1 h.st h.runlen
    rw [State.samples_succ, ← State.samples_of_step hstep] at hwhole ⊢
    rw [runEdges_succ_of_step hstep]
    exact h.acquired.runEdges_settled (hreset.of_step hstep) (wholeTrace_cons_iff.1 hwhole)

/-! ## SEGMENT -/

/-- A run of `k + 1` edges is a step, then a run of `k`. -/
theorem exists_step_of_runEdges_succ {s t : State} {k : Nat} (h : runEdges (k + 1) s = .next t) :
    ∃ u, step s = .next u ∧ runEdges k u = .next t := by
  cases hstep : step s with
  | next u => exact ⟨u, rfl, runEdges_succ_of_step hstep k ▸ h⟩
  | fault f | refused r =>
    have hcore : Host.Core.step Sys2Proof.core s = _ := hstep
    simp [runEdges, Host.Core.run, hcore] at h

/-- `k` edges take `k` listed words, add `k` to the edge number and leave the parameters (log 1, log 3). -/
theorem runEdges_modelFields {s t : State} {k : Nat} (h : runEdges k s = .next t) :
    t.params = s.params ∧ t.stim = s.stim.drop k ∧ t.edge = s.edge + k := by
  induction k generalizing s with
  | zero =>
    obtain rfl : s = t := Host.Outcome.next.inj h
    exact ⟨rfl, rfl, rfl⟩
  | succ k ih =>
    obtain ⟨u, hstep, hrun⟩ := exists_step_of_runEdges_succ h
    obtain ⟨hparams, hstim, hedge⟩ := step_modelFields hstep
    obtain ⟨hparams', hstim', hedge'⟩ := ih hrun
    refine ⟨hparams'.trans hparams, ?_, by omega⟩
    rw [hstim', hstim, List.drop_tail]

/-- The pins of an edge are the same seen from an earlier one. -/
theorem State.pinsAt_of_runEdges {s t : State} {k : Nat} (h : runEdges k s = .next t) (j : Nat) :
    t.pinsAt j = s.pinsAt (k + j) := by
  obtain ⟨-, hstim, hedge⟩ := runEdges_modelFields h
  simp [State.pinsAt, hstim, hedge, Nat.add_assoc]

/-- SEGMENT's trimming records the trimmed trace, under both settings of TRIM (41_acquire.md R126). -/
theorem State.Settled.recorded_trimTail {s : State} {ys : List Bool} (h : s.Settled ys) :
    s.trimTail.Recorded (trimTrace s.params (ys ++ List.replicate (s.params.t + 1) s.prev)) := by
  rw [trimTrace_append_replicate]
  cases htrim : s.params.trim with
  | wholeRun =>
    rw [State.trimTail_of_wholeRun htrim]
    exact h.recorded
  | tSamples =>
    rw [State.trimTail_of_tSamples htrim, State.tailLen_eq_one h.recorded.legal h.runlen]
    exact h.recorded.closeRun h.boundary (Nat.le_refl 1) (Params.legal_t h.recorded.legal).1

/-- SEGMENT's branch leaves what is recorded (42_classify.md R140). -/
theorem State.Recorded.endAcquisition {s : State} {ys : List Bool} (h : s.Recorded ys) : s.endAcquisition.Recorded ys := by
  obtain ⟨-, heq⟩ | ⟨-, -, heq⟩ | ⟨-, -, heq⟩ := s.endAcquisition_cases <;> rw [heq] <;>
    exact { h with widths := { h.widths with } }

/-- A read from its start through SEGMENT: the state it leaves records the trimmed trace (41_acquire.md R129). -/
theorem State.FreshRead.runEdges_recorded {s : State} {m : Nat} (h : s.FreshRead) (hreset : s.NoReset (m + 1))
    (hwhole : wholeTrace s.params.t (s.samples m) = true) :
    ∃ t, runEdges (m + 1) s = .next t ∧ t.Recorded (trimTrace s.params (s.samples m)) := by
  obtain ⟨u, ws, hrun, hsettled, hsamples⟩ := h.runEdges_settled (hreset.mono (Nat.le_succ m)) hwhole
  obtain ⟨hparams, -⟩ := runEdges_modelFields hrun
  have hrst : u.pins.rst = false := by
    rw [← State.pinsAt_zero, State.pinsAt_of_runEdges hrun]
    exact hreset m (Nat.lt_succ_self m)
  have hstep : step u = .next u.trimTail.endAcquisition.nextEdge := step_eq_segment hrst hsettled.st
  refine ⟨_, (runEdges_add hrun 1).trans (runEdges_succ_of_step hstep 0), ?_⟩
  rw [hsamples, ← hparams]
  exact hsettled.recorded_trimTail.endAcquisition.nextEdge

/-- Settles O49: SEGMENT leaves the trimmed trace recorded (`State.FreshRead.runEdges_recorded`), and the trackers are the
extremes of its HighRun lengths. -/
theorem onePassEquivalence : Obligations.OnePassEquivalence := by
  rintro s m hs hfresh hreset hwhole rfl
  obtain ⟨t, hrun, hrec⟩ := hfresh.runEdges_recorded hreset hwhole
  obtain ⟨hparams, -⟩ := runEdges_modelFields hrun
  obtain ⟨-, -, hany, hn, hhrbuf, hmn, hmx, -⟩ := hrec
  rw [hparams] at hn hmn
  refine ⟨t, hrun, hany, hn, hhrbuf, fun hne => ?_, fun heq => ?_⟩
  · rw [hmn, hmx]
    exact ⟨minLen_isLeast s.params hne, maxLen_isGreatest hne⟩
  · rw [hmn, hmx, heq]
    exact ⟨rfl, rfl⟩

end Sys2Proof.Machine

/-! SUPPORT. SEGMENT and CLASSIFY (42_classify.md R140 to R145): the classifier's threshold and scale, the effect and the
frame of the decode operations, the K edges of CLASSIFY, and what they leave in `first_bit` and `sr`. -/

namespace Sys2Proof.Machine

/-! ## The classifier (42_classify.md R143, R145) -/

theorem absDiff_of_le {a b : Nat} (h : a ≤ b) : absDiff a b = b - a := if_pos h

theorem absDiff_of_ge {a b : Nat} (h : b ≤ a) : absDiff a b = a - b := by
  unfold absDiff
  split <;> omega

theorem classifyLen_eq_true_iff {mn mx len : Nat} : classifyLen mn mx len = true ↔ absDiff len mx < absDiff len mn :=
  decide_eq_true_iff

/-- Between the trackers the bit compares the length with their middle (42_classify.md R143). -/
theorem classifyLen_iff_middle {mn mx len : Nat} (hmn : mn ≤ len) (hmx : len ≤ mx) :
    classifyLen mn mx len = true ↔ 2 * len > mn + mx := by
  rw [classifyLen_eq_true_iff, absDiff_of_le hmx, absDiff_of_ge hmn]
  omega

/-- Settles O26: the distances by the order of the three lengths, and the two extremes by `classifyLen_iff_middle`. -/
theorem classifyThreshold : Obligations.ClassifyThreshold := by
  intro mn mx len hmn hmx
  have hle : mn ≤ mx := hmn.trans hmx
  refine ⟨absDiff_of_le hmx, absDiff_of_ge hmn, classifyLen_iff_middle hmn hmx, ?_, ?_⟩
  · rw [Bool.eq_false_iff, Ne, classifyLen_iff_middle (Nat.le_refl mn) hle]
    omega
  · rw [classifyLen_iff_middle hle (Nat.le_refl mx)]
    omega

theorem absDiff_mul_left (a x y : Nat) : absDiff (a * x) (a * y) = a * absDiff x y := by
  obtain h | h := Nat.le_total x y
  · rw [absDiff_of_le h, absDiff_of_le (Nat.mul_le_mul_left a h), Nat.mul_sub]
  · rw [absDiff_of_ge h, absDiff_of_ge (Nat.mul_le_mul_left a h), Nat.mul_sub]

/-- The classifier compares distances, so a common factor drops out (42_classify.md R145). -/
theorem classifyLen_mul_left {a : Nat} (ha : 0 < a) (mn mx len : Nat) :
    classifyLen (a * mn) (a * mx) (a * len) = classifyLen mn mx len := by
  simp only [classifyLen, absDiff_mul_left, Nat.mul_lt_mul_left ha]

theorem minLen_map_mul (p : Params) (a : Nat) {hs : List Nat} (hne : hs ≠ []) :
    minLen p (hs.map (a * ·)) = a * minLen p hs := by
  obtain ⟨h, hs, rfl⟩ := List.exists_cons_of_ne_nil hne
  simp only [minLen, List.map_cons, List.min?_cons', Option.getD_some, List.foldl_map]
  exact List.foldl_hom (a * ·) (Nat.mul_min_mul_left a)

theorem maxLen_map_mul (a : Nat) (hs : List Nat) : maxLen (hs.map (a * ·)) = a * maxLen hs := by
  cases hs with
  | nil => rfl
  | cons h hs =>
    simp only [maxLen, List.map_cons, List.max?_cons', Option.getD_some, List.foldl_map]
    exact List.foldl_hom (a * ·) (Nat.mul_max_mul_left a)

/-- A positive integer factor leaves every bit (42_classify.md R145). -/
theorem classifiedBits_map_mul (p : Params) {a : Nat} (ha : 0 < a) (hs : List Nat) :
    classifiedBits p (hs.map (a * ·)) = classifiedBits p hs := by
  obtain rfl | hne := eq_or_ne hs []
  · rfl
  · simp only [classifiedBits, minLen_map_mul p a hne, maxLen_map_mul, ← List.map_take, List.map_map]
    exact List.map_congr_left fun len _ => classifyLen_mul_left ha _ _ len

/-- Settles O27: both lists have the bits of their common multiple (`classifiedBits_map_mul`). -/
theorem classificationIsSelfCalibrating : Obligations.ClassificationIsSelfCalibrating := by
  intro p hs scaled a b ha hb heq
  calc classifiedBits p scaled
    _ = classifiedBits p (scaled.map (b * ·)) := (classifiedBits_map_mul p hb scaled).symm
    _ = classifiedBits p (hs.map (a * ·)) := by rw [heq]
    _ = classifiedBits p hs := classifiedBits_map_mul p ha hs

/-! ## The effect and the frame of each operation -/

/-- Settles O23: the word matches SEGMENT's row, `u` is the state after the trimming (`State.tailLen_eq_one`), and the
outcome is the branch it takes. -/
theorem segmentOperation : Obligations.SegmentOperation := by
  refine ⟨fun w => (decode_eq_some_iff w .segment).2, fun s u hlegal hrun hwhole hsamples => ?_⟩
  obtain rfl : u = s.trimTail := by
    cases htrim : s.params.trim with
    | wholeRun => rw [hwhole htrim, State.trimTail_of_wholeRun htrim]
    | tSamples => rw [hsamples htrim, State.trimTail_of_tSamples htrim, State.tailLen_eq_one hlegal hrun]
  have hexec : exec .segment s = .next s.trimTail.endAcquisition := rfl
  rw [hexec]
  obtain ⟨hany, heq⟩ | ⟨hany, hn, heq⟩ | ⟨hany, hn, heq⟩ := s.trimTail.endAcquisition_cases
  · simp [hany, heq, State.finish]
  · simp [hany, hn, heq]
  · simp [hany, hn, heq]

/-- The shift of a data bit into `sr`, as a number mod 2^40 (42_classify.md R141). -/
theorem ofNat_double_add_bit (sr : Frame) (b : Bool) : BitVec.ofNat 40 (2 * sr.toNat + b.toNat) = shiftIn sr b :=
  BitVec.eq_of_toNat_eq (by rw [BitVec.toNat_ofNat, shiftIn_toNat])

/-- Settles O24: the word matches CLASSIFY's row, `u` is the state after the bit is taken, and then the index moves on or
the block goes to VALIDATE. -/
theorem classifyOperation : Obligations.ClassifyOperation := by
  refine ⟨fun w => (decode_eq_some_iff w .classify).2, fun s u len b hidx hread hb hfirst hdata => ?_⟩
  obtain rfl : classifyLen s.mn s.mx len = b := Bool.eq_iff_iff.2 (classifyLen_eq_true_iff.trans hb.symm)
  have hzero : s.idx = 0#6 ↔ s.idx.toNat = 0 := ⟨fun h => by rw [h]; rfl, fun h => BitVec.eq_of_toNat_eq h⟩
  have hu : u = s.takeBit (classifyLen s.mn s.mx len) := by
    unfold State.takeBit
    split
    · next h => exact hfirst (hzero.1 h)
    · next h => rw [hdata (mt hzero.2 h), ofNat_double_add_bit]
  have hexec : exec .classify s = .next (s.takeBit (classifyLen s.mn s.mx len)).nextIdx := execClassify_of_read hidx hread
  rw [hexec, hu, State.nextIdx]
  simp +contextual [State.takeBit_eq, State.k]

/-- What SEGMENT's branch leaves as it was (42_classify.md R140). -/
theorem State.endAcquisition_keeps (s : State) :
    s.endAcquisition.prev = s.prev ∧ s.endAcquisition.runlen = s.runlen ∧ s.endAcquisition.sr = s.sr ∧
    s.endAcquisition.anyRun = s.anyRun ∧ s.endAcquisition.n = s.n ∧ s.endAcquisition.mn = s.mn ∧
    s.endAcquisition.mx = s.mx ∧
    (s.endAcquisition.st ≠ .classify → s.endAcquisition.idx = s.idx) ∧
    (s.endAcquisition.st ≠ .validate → s.endAcquisition.firstBit = s.firstBit) ∧
    (s.endAcquisition.st ≠ .done → s.endAcquisition.status = s.status ∧ s.endAcquisition.rHint = s.rHint ∧
      s.endAcquisition.rHdec = s.rHdec ∧ s.endAcquisition.rTint = s.rTint ∧ s.endAcquisition.rTdec = s.rTdec ∧
      s.endAcquisition.rChk = s.rChk) := by
  obtain ⟨-, h⟩ | ⟨-, -, h⟩ | ⟨-, -, h⟩ := s.endAcquisition_cases <;> simp [h, State.finish]

/-- What `finish` leaves as it was (43_validate.md R163). -/
theorem State.finish_keeps (s : State) (code : ReadStatus) :
    (s.finish code).prev = s.prev ∧ (s.finish code).runlen = s.runlen ∧ (s.finish code).anyRun = s.anyRun ∧
    (s.finish code).n = s.n ∧ (s.finish code).mn = s.mn ∧ (s.finish code).mx = s.mx ∧ (s.finish code).idx = s.idx ∧
    (s.finish code).firstBit = s.firstBit ∧ (s.finish code).sr = s.sr := by
  cases code <;> simp [State.finish]

/-- Settles O37: SEGMENT by what its trimming and its branch keep, CLASSIFY by its effect as one record
(`State.takeBit_nextIdx`), VALIDATE by what `finish` keeps. -/
theorem decodeOperationsFrame : Obligations.DecodeOperationsFrame := by
  refine fun s t => ⟨fun h => ?_, fun h => ?_, fun h => ?_⟩
  · obtain rfl : t = s.trimTail.endAcquisition := by simpa using exec_next h
    simp +contextual [State.endAcquisition_keeps, State.trimTail_keeps, State.trimTail_of_wholeRun]
  · obtain ⟨len, -, -, rfl⟩ := execClassify_next h
    rw [State.takeBit_nextIdx]
    simp +contextual [BitVec.toNat_eq]
  · obtain rfl : t = s.finish s.validateCode := by simpa using exec_next h
    simp [State.finish_keeps]

/-! ## SEGMENT's step, and the bits of the buffered runs -/

theorem step_eq_classify {s : State} (hrst : s.pins.rst = false) (hst : s.st = .classify) :
    step s = passEdge (exec .classify s) := by
  obtain ⟨-, -, -, -, -, -, -, -, hiff, -⟩ := operationMap.2.2 s
  exact step_eq_of_decode (hiff.2 ⟨hrst, hst⟩)

/-- The two states SEGMENT's step can leave for a read with a closed run (42_classify.md R140). -/
theorem step_segment_cases {s t : State} (hrst : s.pins.rst = false) (hst : s.st = .segment) (h : step s = .next t)
    (hany : t.anyRun = true) :
    (t.n = 0 ∧ t.st = .validate ∧ t.firstBit = false) ∨ (t.n ≠ 0 ∧ t.st = .classify ∧ t.idx = 0#6) := by
  rw [step_eq_segment hrst hst] at h
  obtain rfl : s.trimTail.endAcquisition.nextEdge = t := Host.Outcome.next.inj h
  obtain ⟨hno, heq⟩ | ⟨-, hn, heq⟩ | ⟨-, hn, heq⟩ := s.trimTail.endAcquisition_cases
  · simp [s.trimTail.endAcquisition_keeps, hno] at hany
  · exact .inl (by simp [heq, hn])
  · exact .inr (by simp [heq, hn])

/-- The K buffered runs are written, and `bs` are their bits against the trackers (42_classify.md R144). -/
structure State.EntryBits (s : State) (bs : List Bool) : Prop where
  length : bs.length = s.k
  read : ∀ i < s.k, (s.hrbuf.read i).map (classifyLen s.mn s.mx) = bs[i]?

/-- The runs the invariant says are buffered have bits (10_state.md R40 item 6). -/
theorem State.Inv.exists_entryBits {s : State} (h : s.Inv) : ∃ bs, s.EntryBits bs := by
  refine ⟨(List.range s.k).map fun i => classifyLen s.mn s.mx ((s.hrbuf.read i).getD 0), by simp, fun i hi => ?_⟩
  obtain ⟨len, hread, -⟩ := h.buffered i hi
  simp [hread, hi]

/-- Once the read's HighRuns are recorded, the bits of the buffered ones are those of the two-pass definition
(42_classify.md R144). -/
theorem State.Recorded.entryBits {s : State} {ys : List Bool} (h : s.Recorded ys) :
    s.EntryBits (classifiedBits s.params (highRuns ys)) := by
  have hnmax := Params.legal_nmax h.legal
  have hk : s.k = min (highRuns ys).length 41 := by
    rw [State.k, h.n]
    omega
  refine ⟨by simp [classifiedBits, hk, Nat.min_comm], fun i hi => ?_⟩
  have hi41 : i < 41 := by omega
  rw [h.hrbuf i (hk ▸ hi), h.mn, h.mx]
  simp [classifiedBits, hi41]

/-! ## CLASSIFY, edge by edge (42_classify.md R142) -/

/-- The block after `j` edges of CLASSIFY from `u`: the first `j` of the bits `bs` are in `first_bit` and `sr`, and it is
at the entry `j`, or past the last one in VALIDATE. -/
structure State.Classified (u : State) (bs : List Bool) (j : Nat) (s : State) : Prop where
  entries : s.EntryBits bs
  firstBit : s.firstBit = (bs.take j).headD u.firstBit
  sr : s.sr = (bs.take j).tail.foldl shiftIn u.sr
  place : if j = bs.length then s.st = .validate else s.st = .classify ∧ s.idx.toNat = j

section classified

variable {s u : State} {bs : List Bool} {j : Nat}

/-- SEGMENT leaves a read with a closed run at its first bit, or in VALIDATE where it has none. -/
theorem State.classified_of_step_segment (hrst : s.pins.rst = false) (hst : s.st = .segment) (h : step s = .next u)
    (hany : u.anyRun = true) (hbits : u.EntryBits bs) : u.Classified bs 0 u := by
  refine ⟨hbits, rfl, rfl, ?_⟩
  rw [hbits.length, State.k]
  obtain ⟨hn, hvalidate, -⟩ | ⟨hn, hclassify, hidx⟩ := step_segment_cases hrst hst h hany
  · simpa [hn] using hvalidate
  · have hpos : 0 ≠ min u.n 41 := by omega
    simp [hpos, hclassify, hidx]

/-- One more bit: the first is kept apart, each later one is shifted in (42_classify.md R141). -/
theorem firstBit_sr_of_take_succ (hj : j < bs.length) :
    (bs.take (j + 1)).headD u.firstBit = (if j = 0 then bs[j] else (bs.take j).headD u.firstBit) ∧
    (bs.take (j + 1)).tail.foldl shiftIn u.sr =
      (if j = 0 then (bs.take j).tail.foldl shiftIn u.sr
        else shiftIn ((bs.take j).tail.foldl shiftIn u.sr) bs[j]) := by
  cases bs with
  | nil => simp at hj
  | cons b bs =>
    cases j with
    | zero => simp
    | succ j =>
      have hlt : j < bs.length := Nat.lt_of_succ_lt_succ hj
      refine ⟨rfl, ?_⟩
      simp only [List.take_succ_cons, List.tail_cons, List.take_succ_eq_append_getElem hlt, List.foldl_append]
      rfl

/-- CLASSIFY's edge at entry `j` takes the bit `j` (42_classify.md R141). -/
theorem State.Classified.step (h : u.Classified bs j s) (hj : j < bs.length) (hrst : s.pins.rst = false) :
    ∃ t, step s = .next t ∧ u.Classified bs (j + 1) t := by
  obtain ⟨hbits, hfirst, hsr, hplace⟩ := h
  rw [if_neg (Nat.ne_of_lt hj)] at hplace
  obtain ⟨hst, hidx⟩ := hplace
  have hk : s.k = bs.length := hbits.length.symm
  have hk41 : s.k ≤ 41 := Nat.min_le_right _ _
  obtain ⟨len, hread, hbit⟩ : ∃ len, s.hrbuf.read j = some len ∧ classifyLen s.mn s.mx len = bs[j] := by
    have hentry := hbits.read j (by omega)
    rwa [List.getElem?_eq_getElem hj, Option.map_eq_some_iff] at hentry
  have hexec : exec .classify s = .next (s.takeBit bs[j]).nextIdx :=
    hbit ▸ execClassify_of_read (by omega) (hidx ▸ hread)
  have hzero : s.idx = 0#6 ↔ j = 0 := by rw [← hidx, BitVec.toNat_eq]; rfl
  refine ⟨(s.takeBit bs[j]).nextIdx.nextEdge, by rw [step_eq_classify hrst hst, hexec]; rfl, ?_⟩
  obtain ⟨hfirst', hsr'⟩ := firstBit_sr_of_take_succ (u := u) hj
  rw [State.takeBit_nextIdx]
  refine ⟨⟨hbits.length, hbits.read⟩, ?_, ?_, ?_⟩
  · simp only [State.nextEdge_firstBit, hfirst', hzero, hfirst]
  · simp only [State.nextEdge_sr, hsr', hzero, hsr]
  · simp only [State.nextEdge_st, State.nextEdge_idx, hidx, hk, hst]
    split
    · rfl
    · refine ⟨rfl, ?_⟩
      rw [BitVec.toNat_ofNat]
      omega

/-- The edges of CLASSIFY, one for each bit (42_classify.md R142). -/
theorem State.Classified.runEdges (h : u.Classified bs 0 u) (hreset : u.NoReset bs.length) (hj : j ≤ bs.length) :
    ∃ t, runEdges j u = .next t ∧ u.Classified bs j t := by
  induction j with
  | zero => exact ⟨u, rfl, h⟩
  | succ j ih =>
    obtain ⟨s, hrun, hs⟩ := ih (Nat.le_of_succ_le hj)
    have hrst : s.pins.rst = false := by
      rw [← State.pinsAt_zero, State.pinsAt_of_runEdges hrun]
      exact hreset j hj
    obtain ⟨t, hstep, ht⟩ := hs.step hj hrst
    exact ⟨t, (runEdges_add hrun 1).trans (runEdges_succ_of_step hstep 0), ht⟩

end classified

/-- Settles O50: the invariant gives the entries' bits, and CLASSIFY takes one an edge (`State.Classified.runEdges`). -/
theorem classifyRunsExactlyKTimes : Obligations.ClassifyRunsExactlyKTimes := by
  intro s u hinv hst hrst hstep
  have hinv' : u.Inv := stepKeepsInvariant s u hinv hstep
  refine ⟨fun hn hany => ?_, fun hn hreset => ?_⟩
  · obtain ⟨-, hvalidate, -⟩ | ⟨hne, -⟩ := step_segment_cases hrst hst hstep hany
    · exact hvalidate
    · exact absurd hn hne
  · have hany : u.anyRun = true := hinv'.counted (Nat.one_le_iff_ne_zero.2 hn)
    obtain ⟨bs, hbits⟩ := hinv'.exists_entryBits
    have hstart := State.classified_of_step_segment hrst hst hstep hany hbits
    rw [← hbits.length] at hreset ⊢
    refine ⟨fun j hj => ?_, ?_⟩
    · obtain ⟨v, hrun, hv⟩ := hstart.runEdges hreset hj.le
      obtain ⟨hclassify, hidx⟩ : v.st = .classify ∧ v.idx.toNat = j := by
        simpa only [if_neg (Nat.ne_of_lt hj)] using hv.place
      refine ⟨v, hrun, hclassify, hidx, fun hnone => ?_⟩
      have hentry := hv.entries.read j (hv.entries.length ▸ hj)
      simp [hnone, List.getElem?_eq_getElem hj] at hentry
    · obtain ⟨v, hrun, hv⟩ := hstart.runEdges hreset (Nat.le_refl _)
      exact ⟨v, hrun, by simpa using hv.place⟩

/-! ## The contents when VALIDATE begins (42_classify.md R144) -/

/-- A read's SEGMENT edge: the state before it, and the state it leaves, which records the trimmed trace. -/
theorem State.FreshRead.runEdges_segment {s : State} {m : Nat} (h : s.FreshRead) (hreset : s.NoReset (m + 1))
    (hwhole : wholeTrace s.params.t (s.samples m) = true) :
    ∃ u t, runEdges (m + 1) s = .next t ∧ u.pins.rst = false ∧ u.st = .segment ∧ step u = .next t ∧
      t.Recorded (trimTrace s.params (s.samples m)) := by
  obtain ⟨u, ws, hrunu, hsettled, -⟩ := h.runEdges_settled (hreset.mono (Nat.le_succ m)) hwhole
  obtain ⟨t, hrun, hrec⟩ := h.runEdges_recorded hreset hwhole
  have hrst : u.pins.rst = false := by
    rw [← State.pinsAt_zero, State.pinsAt_of_runEdges hrunu]
    exact hreset m (Nat.lt_succ_self m)
  obtain ⟨v, hstep, hv⟩ := exists_step_of_runEdges_succ ((runEdges_add hrunu 1).symm.trans hrun)
  obtain rfl : v = t := Host.Outcome.next.inj hv
  exact ⟨u, v, hrun, hrst, hsettled.st, hstep, hrec⟩

/-- `rst` seen from a later edge. -/
theorem State.NoReset.of_runEdges {s t : State} {m k : Nat} (h : s.NoReset (m + k)) (hrun : runEdges m s = .next t) :
    t.NoReset k := fun j hj => by
  rw [State.pinsAt_of_runEdges hrun]
  exact h _ (Nat.add_lt_add_left hj m)

/-- The data bits of at most 41 classified ones sit right-aligned, the latest at bit 0 (42_classify.md R144). -/
theorem shiftAll_tail_getLsbD {bs : List Bool} (hlen : bs.length ≤ 41) {i : Nat} (hpos : 1 ≤ i) (hi : i < bs.length) :
    some ((shiftAll bs.tail).getLsbD (bs.length - 1 - i)) = bs[i]? := by
  have hidx : bs.tail.length - 1 - (bs.length - 1 - i) + 1 = i := by
    rw [List.length_tail]
    omega
  rw [shiftAll_getLsbD _ (by omega), List.getElem?_reverse (by rw [List.length_tail]; omega), List.getElem?_tail, hidx]
  simp [hi]

/-- Above the bits shifted in, the shift register keeps its zeros (42_classify.md R144). -/
theorem shiftAll_getLsbD_of_length_le {bs : List Bool} {j : Nat} (hj : bs.length ≤ j) :
    (shiftAll bs).getLsbD j = false := by
  obtain h40 | h40 := Nat.lt_or_ge j 40
  · simp [shiftAll_getLsbD bs h40, hj]
  · exact BitVec.getLsbD_of_ge _ _ h40

/-- Settles O51: SEGMENT leaves the HighRuns recorded, CLASSIFY takes their bits (`State.Classified.runEdges`), and the
places in `sr` are those of the shifts; a read with no HighRun has its first bit cleared by SEGMENT. -/
theorem contentsAfterClassification : Obligations.ContentsAfterClassification := by
  rintro s m k bs hfresh hwhole htrim rfl rfl hreset
  obtain ⟨v, u, hrunu, hrst, hst, hstep, hrec⟩ := hfresh.runEdges_segment (hreset.mono (Nat.le_add_right _ _)) hwhole
  obtain ⟨hparams, -⟩ := runEdges_modelFields hrunu
  have hbits := hrec.entryBits
  rw [hparams] at hbits
  generalize classifiedBits s.params (highRuns (trimTrace s.params (s.samples m))) = bs at hbits hreset ⊢
  have hany : u.anyRun = true := hrec.anyRun.2 htrim
  have hstart := State.classified_of_step_segment hrst hst hstep hany hbits
  obtain ⟨t, hrun, ht⟩ := hstart.runEdges (hreset.of_runEdges hrunu) (Nat.le_refl _)
  obtain ⟨-, hfirst, hsr, hplace⟩ := ht
  have hlen : bs.length ≤ 41 := hbits.length ▸ Nat.min_le_right _ _
  have hsr : t.sr = shiftAll bs.tail := by rw [hsr, List.take_length, hrec.sr, shiftAll]
  refine ⟨t, (runEdges_add hrunu _).trans hrun, by simpa using hplace, ?_, fun i hpos hi => ?_, fun j hj => ?_⟩
  · rw [hfirst, List.take_length]
    cases bs with
    | cons b bs => rfl
    | nil =>
      have hk : 0 = min u.n 41 := hbits.length
      obtain ⟨-, -, hclear⟩ | ⟨hn, -⟩ := step_segment_cases hrst hst hstep hany
      · exact hclear
      · omega
  · rw [hsr]
    exact shiftAll_tail_getLsbD hlen hpos hi
  · rw [hsr]
    exact shiftAll_getLsbD_of_length_le (by rwa [List.length_tail])

end Sys2Proof.Machine

/-! SUPPORT. VALIDATE (43_validate.md R160 to R167): its outcome code, what `finish` writes, and the checksum against a
flipped bit of the Frame. -/

namespace Sys2Proof.Machine

/-! ## The checksum and a flipped bit of the Frame (43_validate.md R164, R165) -/

/-- Flipping bit `j` of a Frame toggles it and no other bit. -/
theorem flip_getLsbD (sr : Frame) {j : Nat} (hj : j < 40) (i : Nat) :
    (sr ^^^ 1#40 <<< j).getLsbD i = (sr.getLsbD i ^^ decide (j = i)) := by
  rw [BitVec.getLsbD_xor, ← BitVec.twoPow_eq, BitVec.getLsbD_twoPow]
  simp [hj]

/-- The bytes a flip of bit `j` leaves as they were: all but the one that holds the bit (20_memory.md R50). -/
theorem slice_flip_eq_iff (sr : Frame) {j : Nat} (hj : j < 40) (q : Nat) :
    (sr ^^^ 1#40 <<< j).extractLsb' (8 * q) 8 = sr.extractLsb' (8 * q) 8 ↔ j / 8 ≠ q := by
  constructor
  · rintro h rfl
    have hbit := congrArg (·.getLsbD (j % 8)) h
    have hlt : j % 8 < 8 := Nat.mod_lt j (by decide)
    simp [hlt, Nat.div_add_mod, flip_getLsbD sr hj] at hbit
  · intro hq
    apply BitVec.eq_of_getLsbD_eq
    intro i hi
    have hne : j ≠ 8 * q + i := by omega
    simp [flip_getLsbD sr hj, hne]

theorem checksumOk_iff (sr : Frame) : checksumOk sr = true ↔ checksumCalc sr = (bChk sr).toNat := decide_eq_true_iff

/-- The checksum catches every flip of one bit: one of the five bytes changes, so both sides of the sum cannot move
together (43_validate.md R165). -/
theorem checksumOk_flip {sr : Frame} (h : checksumOk sr = true) {j : Nat} (hj : j < 40) :
    checksumOk (sr ^^^ 1#40 <<< j) = false := by
  have hbyte (q : Nat) : ((sr ^^^ 1#40 <<< j).extractLsb' (8 * q) 8).toNat = (sr.extractLsb' (8 * q) 8).toNat ↔
      j / 8 ≠ q := BitVec.toNat_inj.trans (slice_flip_eq_iff sr hj q)
  have hint : (bHint (sr ^^^ 1#40 <<< j)).toNat = (bHint sr).toNat ↔ j / 8 ≠ 4 := hbyte 4
  have hdec : (bHdec (sr ^^^ 1#40 <<< j)).toNat = (bHdec sr).toNat ↔ j / 8 ≠ 3 := hbyte 3
  have tint : (bTint (sr ^^^ 1#40 <<< j)).toNat = (bTint sr).toNat ↔ j / 8 ≠ 2 := hbyte 2
  have tdec : (bTdec (sr ^^^ 1#40 <<< j)).toNat = (bTdec sr).toNat ↔ j / 8 ≠ 1 := hbyte 1
  have chk : (bChk (sr ^^^ 1#40 <<< j)).toNat = (bChk sr).toNat ↔ j / 8 ≠ 0 := hbyte 0
  rw [checksumOk_iff, checksumCalc] at h
  rw [Bool.eq_false_iff, Ne, checksumOk_iff, checksumCalc]
  omega

/-- A Frame of five bytes passes the checksum when the fifth is the sum of the others mod 256 (43_validate.md R164). -/
theorem checksumOk_of_bytes {hi hd ti td c : Byte}
    (h : c.toNat = (hi.toNat + hd.toNat + ti.toNat + td.toNat) % 256) :
    checksumOk (hi ++ hd ++ ti ++ td ++ c) = true := by
  obtain ⟨hhi, hhd, hti, htd, hc⟩ := slices_of_bytes hi hd ti td c
  rw [checksumOk_iff, checksumCalc, hhi, hhd, hti, htd, hc, h]

/-! ## The outcome code of VALIDATE (43_validate.md R160, R161) -/

theorem execValidate_eq (s : State) : exec .validate s = .next (s.finish s.validateCode) := rfl

section code

variable {s : State}

theorem State.validateCode_of_reject (h : seqReject s.params.seqRule (decide (s.n = 41)) s.firstBit = true) :
    s.validateCode = .sequenceError := if_pos h

/-- Past the structural check the checksum decides. -/
theorem State.validateCode_of_not_reject (h : seqReject s.params.seqRule (decide (s.n = 41)) s.firstBit = false) :
    s.validateCode = if checksumOk s.sr then .ok else .checksumError := if_neg (by simp [h])

/-- With 41 HighRuns and the handshake bit the structural check passes under either rule (43_validate.md R161), and the
checksum decides. -/
theorem execValidate_of_whole (hn : s.n = 41) (hfirst : s.firstBit = true) :
    exec .validate s = .next (s.finish (if checksumOk s.sr then .ok else .checksumError)) := by
  have hpass : seqReject s.params.seqRule (decide (s.n = 41)) s.firstBit = false := by
    rw [hn, hfirst]
    cases s.params.seqRule <;> rfl
  rw [execValidate_eq, State.validateCode_of_not_reject hpass]

end code

@[simp] theorem State.finish_status (s : State) (code : ReadStatus) : (s.finish code).status = code := by
  cases code <;> rfl

/-- Settles O31: the Frame is whole, so the checksum decides (`State.validateCode_of_not_reject`); it holds for the five
bytes and for no Frame that differs from theirs in one bit (`checksumOk_flip`). -/
theorem checksumRoundTripAndMutation : Obligations.ChecksumRoundTripAndMutation := by
  intro s hi hd ti td c hn hfirst hc
  have hok := checksumOk_of_bytes hc
  have hcode (sr : Frame) := execValidate_of_whole (s := { s with sr := sr }) hn hfirst
  refine ⟨⟨_, hcode _, State.finish_st .., ?_⟩, fun j hj => ⟨_, hcode _, State.finish_st .., ?_⟩⟩
  · rw [if_pos hok]
    exact ⟨rfl, slices_of_bytes hi hd ti td c⟩
  · rw [State.finish_status, checksumOk_flip hok hj]
    rfl

/-- Settles O28: the word matches VALIDATE's row, `reject` is the structural check under the build's rule, and past it the
sum is the checksum's. -/
theorem validateOperation : Obligations.ValidateOperation := by
  refine ⟨fun w => (decode_eq_some_iff w .validate).2, fun s reject sum heither hboth hsum => ?_⟩
  obtain rfl : seqReject s.params.seqRule (decide (s.n = 41)) s.firstBit = reject := by
    rw [Bool.eq_iff_iff]
    cases hrule : s.params.seqRule with
    | either => rw [heither hrule]; simp [seqReject, imp_iff_not_or]
    | both => rw [hboth hrule]; simp [seqReject]
  have hcheck : checksumOk s.sr = decide (sum = (s.sr.extractLsb' 0 8).toNat) := by rw [hsum]; rfl
  refine ⟨fun hrej => ?_, fun hrej hne => ?_, fun hrej heq => ?_⟩
  · rw [execValidate_eq, State.validateCode_of_reject hrej]
  · rw [execValidate_eq, State.validateCode_of_not_reject hrej, hcheck, decide_eq_false hne]
    rfl
  · rw [execValidate_eq, State.validateCode_of_not_reject hrej, hcheck, decide_eq_true heq]
    rfl

/-- Settles O29: on OK the bytes are the slices of `sr`, on every other code they are 0 (`State.finish_error`). -/
theorem finishWritesTheOutcome : Obligations.FinishWritesTheOutcome := by
  refine fun s code => ⟨?_, s.finish_error⟩
  rintro rfl
  rfl

/-- A step that enters DONE is VALIDATE's, or SEGMENT's on a trimmed trace with no run: no other operation's next state is
DONE (40_control.md R105). -/
theorem step_enters_done {s t : State} (h : step s = .next t) (hst : s.st ≠ .done) (hdone : t.st = .done) :
    s.st = .validate ∨ (s.st = .segment ∧ t.status = .noDataError) := by
  obtain ⟨-, rfl⟩ | ⟨-, hcase⟩ := step_cases h
  · simp at hdone
  obtain ⟨-, -, rfl⟩ | ⟨-, -, rfl⟩ | ⟨hacq, -, rfl⟩ | ⟨hacq, -, -, rfl⟩ | ⟨hacq, -, -, -, rfl⟩ | ⟨-, -, -, -, rfl⟩ |
    ⟨hseg, rfl⟩ | ⟨hcls, len, -, -, rfl⟩ | ⟨hval, -⟩ | ⟨-, rfl⟩ := hcase
  · exact absurd hdone hst
  · simp at hdone
  · simp [hacq] at hdone
  · simp [hacq] at hdone
  · simp [hacq] at hdone
  · simp at hdone
  · obtain ⟨-, heq⟩ | ⟨-, -, heq⟩ | ⟨-, -, heq⟩ := s.trimTail.endAcquisition_cases
    · exact .inr ⟨hseg, by simp [heq]⟩
    · simp [heq] at hdone
    · simp [heq] at hdone
  · rw [State.nextEdge_st, State.takeBit_nextIdx, hcls] at hdone
    split at hdone <;> cases hdone
  · exact .inl hval
  · simp at hdone

/-- Settles O30: the table is VALIDATE's code (`State.validateCode`) on the eight values of its three facts under each
rule; what enters DONE is `step_enters_done`. -/
theorem outcomeTable : Obligations.OutcomeTable := by
  refine ⟨fun s => ⟨_, execValidate_eq s, s.finish_st _, fun hrule => ?_, fun hrule => ?_⟩, fun _ _ => step_enters_done⟩
  all_goals
    rw [State.finish_status, State.validateCode, hrule]
    cases decide (s.n = 41) <;> cases s.firstBit <;> cases checksumOk s.sr <;> rfl

end Sys2Proof.Machine

/-! SUPPORT. Outcomes (60_exceptions.md R180 to R192): how DONE is left and entered, the steps of the invariant that never
stop, the Reading of a whole read, when it is NO_DATA_ERROR, and the output pins. -/

namespace Sys2Proof.Machine

/-! ## DONE and the output pins -/

/-- Settles O41: in DONE the pins select RESET, START or WAIT (`operationMap`), and the table gives their next states; what
enters DONE is `step_enters_done`. -/
theorem doneEnteredAndLeft : Obligations.DoneEnteredAndLeft := by
  refine fun s t h => ⟨fun hst hleft => ?_, fun hst hdone => ?_⟩
  · obtain ⟨hreset, -, hstart, -⟩ := operationMap.2.2 s
    obtain ⟨hidle, hlow⟩ := transitionTable s t h
    cases hrst : s.pins.rst with
    | true => exact .inr ⟨hreset.2 hrst, hidle hrst⟩
    | false =>
      obtain ⟨hwait, hacquire, -⟩ := hlow hrst
      cases hgo : s.pins.start with
      | false => exact absurd ((hwait (.inr hst) hgo).trans hst) hleft
      | true => exact .inl ⟨hstart.2 ⟨hrst, .inr hst, hgo⟩, hacquire (.inr hst) hgo⟩
  · obtain hval | ⟨hseg, -⟩ := step_enters_done h hst hdone
    · exact .inr hval
    · exact .inl hseg

/-- Settles O33: every pin is its register or a comparison of `st`, and outside DONE the invariant has the status and the
bytes clear (`State.Inv.notDone`). -/
theorem outputPinsOfTheState : Obligations.OutputPinsOfTheState := by
  refine fun s => ⟨by simp [State.outputs_done], by simp [State.outputs_busy], rfl, rfl, rfl, rfl, rfl, rfl, rfl, rfl, rfl,
    rfl, rfl, fun hinv hdone => ?_⟩
  rw [State.outputs_done, decide_eq_false_iff_not] at hdone
  obtain ⟨hstatus, hbytes⟩ := hinv.notDone hdone
  exact ⟨congrArg ReadStatus.code hstatus, hbytes⟩

/-! ## No step stops (60_exceptions.md R180) -/

/-- Where the invariant holds, CLASSIFY's entry is one of the K buffered ones, so it has a value (20_memory.md R53). -/
theorem State.Inv.hrRead_idx {s : State} (h : s.Inv) (hst : s.st = .classify) : ∃ len, s.hrRead s.idx.toNat = .ok len := by
  have hidx := h.classifyIdx hst
  obtain ⟨len, hread, -⟩ := h.buffered _ hidx
  exact ⟨len, (s.hrRead_ok_iff _ _).2 ⟨hidx.trans_le (Nat.min_le_right _ _), hread⟩⟩

/-- Settles O46: only CLASSIFY can stop, where `HRRead` faults (`exec_not_next`), and its entry has a value
(`State.Inv.hrRead_idx`). -/
theorem invariantStepsNeverStop : Obligations.InvariantStepsNeverStop := by
  intro s hinv
  by_cases hnext : ∃ u, exec s.op s = .next u
  · obtain ⟨u, hu⟩ := hnext
    exact ⟨u.nextEdge, by rw [step_eq, hu]; rfl⟩
  · obtain ⟨hop, f, -, hfault⟩ := exec_not_next (not_exists.1 hnext)
    obtain ⟨-, -, -, -, -, -, -, -, hiff, -⟩ := operationMap.2.2 s
    obtain ⟨-, hst⟩ := hiff.1 (by rw [s.decode_selector, hop])
    obtain ⟨len, hread⟩ := hinv.hrRead_idx hst
    rw [hread] at hfault
    cases hfault

/-! ## The two-pass outcome NO_DATA_ERROR (60_exceptions.md R181) -/

/-- The checks give no NO_DATA_ERROR (43_validate.md R160). -/
theorem validateBits_status_ne_noDataError (p : Params) (count : Nat) (bs : List Bool) :
    (validateBits p count bs).status ≠ .noDataError := by
  simp only [validateBits]
  split
  · exact nofun
  · split <;> exact nofun

/-- NO_DATA_ERROR is the outcome of an empty trimmed trace (42_classify.md R140). -/
theorem readTrace_status_eq_noDataError_iff {p : Params} {xs : List Bool} :
    (readTrace p xs).status = .noDataError ↔ trimTrace p xs = [] := by
  simp only [readTrace]
  split
  · next h => exact iff_of_true rfl h
  · next h => exact iff_of_false (validateBits_status_ne_noDataError _ _ _) h

/-- Settles O57: the outcome is that of an empty trimmed trace, and the trimming (`trimTrace_append_replicate`) empties a
trace only under WHOLE_RUN, where nothing comes before the T + 1 last samples. -/
theorem noDataExactlyForUnchangedLine : Obligations.NoDataExactlyForUnchangedLine := by
  intro p xs _ hwhole
  obtain ⟨ws, b, rfl, -⟩ := wholeTrace_settles hwhole
  rw [readTrace_status_eq_noDataError_iff, trimTrace_append_replicate]
  cases p.trim with
  | tSamples => simp
  | wholeRun =>
    simp only [true_and]
    constructor
    · rintro rfl
      exact ⟨b, rfl⟩
    · rintro ⟨c, hc⟩
      simpa using congrArg List.length hc

/-! ## The Reading of a read (60_exceptions.md R185, R186) -/

theorem step_eq_validate {s : State} (hrst : s.pins.rst = false) (hst : s.st = .validate) :
    step s = passEdge (exec .validate s) := by
  obtain ⟨-, -, -, -, -, -, -, -, -, hiff, -⟩ := operationMap.2.2 s
  exact step_eq_of_decode (hiff.2 ⟨hrst, hst⟩)

theorem State.nextEdge_reading (s : State) : s.nextEdge.reading = s.reading := rfl

/-- The Reading an outcome shows: on OK the Frame's bytes, on every other code zeros (43_validate.md R163). -/
theorem State.finish_reading (s : State) (code : ReadStatus) :
    (s.finish code).reading =
      some (if code = .ok then
        { status := .ok, hint := bHint s.sr, hdec := bHdec s.sr, tint := bTint s.sr, tdec := bTdec s.sr, chk := bChk s.sr }
      else failedReading code) := by
  cases code <;> rfl

/-- VALIDATE shows the Reading of the classified bits once `first_bit` and `sr` hold them and `n` tells whether there were
41 HighRuns (43_validate.md R160). -/
theorem State.validate_reading {s : State} {count : Nat} {bs : List Bool} (hn : s.n = 41 ↔ count = 41)
    (hfirst : s.firstBit = bs.headD false) (hsr : s.sr = shiftAll bs.tail) :
    (s.finish s.validateCode).reading = some (validateBits s.params count bs) := by
  rw [State.finish_reading, validateBits, State.validateCode, ← hfirst, ← hsr, decide_eq_decide.2 hn]
  cases seqReject s.params.seqRule (decide (count = 41)) s.firstBit <;> cases checksumOk s.sr <;> rfl

/-- `rst` at an edge of a run in which it stays low. -/
theorem State.NoReset.pins_rst_of_runEdges {s t : State} {m k : Nat} (h : s.NoReset m) (hrun : runEdges k s = .next t)
    (hk : k < m) : t.pins.rst = false := by
  rw [← State.pinsAt_zero, State.pinsAt_of_runEdges hrun]
  exact h k hk

/-- The HighRun count stays as SEGMENT left it over the edges of CLASSIFY (42_classify.md R141). -/
theorem State.n_of_runEdges_classify {u t : State} {bs : List Bool} {j : Nat} (h : u.Classified bs 0 u)
    (hreset : u.NoReset bs.length) (hj : j ≤ bs.length) (hrun : runEdges j u = .next t) : t.n = u.n := by
  induction j generalizing t with
  | zero => rw [Host.Outcome.next.inj hrun]
  | succ j ih =>
    obtain ⟨s, hruns, hs⟩ := h.runEdges hreset (Nat.le_of_succ_le hj)
    obtain ⟨hst, -⟩ : s.st = .classify ∧ s.idx.toNat = j := by simpa only [if_neg (Nat.ne_of_lt hj)] using hs.place
    have hrst := hreset.pins_rst_of_runEdges hruns hj
    obtain ⟨v, hstep, hv⟩ := exists_step_of_runEdges_succ ((runEdges_add hruns 1).symm.trans hrun)
    obtain rfl : v = t := Host.Outcome.next.inj hv
    rw [step_eq_classify hrst hst] at hstep
    obtain ⟨w, hexec, rfl⟩ := passEdge_eq_next hstep
    obtain ⟨-, -, -, hn, -⟩ := (decodeOperationsFrame s w).2.1 hexec
    exact hn.trans (ih (Nat.le_of_succ_le hj) hruns)

/-- The bits of R144 are all of `sr`: the data bits shifted into an empty register. -/
theorem eq_shiftAll_tail {sr : Frame} {bs : List Bool} (hlen : bs.length ≤ 41)
    (hdata : ∀ i, 1 ≤ i → i < bs.length → some (sr.getLsbD (bs.length - 1 - i)) = bs[i]?)
    (hzero : ∀ j, bs.length - 1 ≤ j → sr.getLsbD j = false) : sr = shiftAll bs.tail := by
  refine BitVec.eq_of_getLsbD_eq fun j _ => ?_
  obtain hj | hj := Nat.lt_or_ge j (bs.length - 1)
  · have hpos : 1 ≤ bs.length - 1 - j := by omega
    have hlt : bs.length - 1 - j < bs.length := by omega
    have hplace : bs.length - 1 - (bs.length - 1 - j) = j := by omega
    have hbit := (hdata _ hpos hlt).trans (shiftAll_tail_getLsbD hlen hpos hlt).symm
    rwa [hplace, Option.some.injEq] at hbit
  · rw [hzero j hj, shiftAll_getLsbD_of_length_le (by rwa [List.length_tail])]

section reading

variable {s : State} {m : Nat}

/-- A read whose trimmed trace is empty ends at SEGMENT's edge (42_classify.md R140). -/
theorem State.FreshRead.reading_noData (h : s.FreshRead) (hwhole : wholeTrace s.params.t (s.samples m) = true)
    (htrim : trimTrace s.params (s.samples m) = []) (hreset : s.NoReset (m + 1)) :
    ∃ t, runEdges (m + 1) s = .next t ∧ t.reading = some (failedReading .noDataError) := by
  obtain ⟨u, t, hrun, hrst, hst, hstep, hrec⟩ := h.runEdges_segment hreset hwhole
  have hany : t.anyRun ≠ true := mt hrec.anyRun.1 (not_not.2 htrim)
  rw [step_eq_segment hrst hst] at hstep
  obtain rfl : u.trimTail.endAcquisition.nextEdge = t := Host.Outcome.next.inj hstep
  refine ⟨_, hrun, ?_⟩
  obtain ⟨-, heq⟩ | ⟨hsome, -, heq⟩ | ⟨hsome, -, heq⟩ := u.trimTail.endAcquisition_cases
  · rw [heq, State.nextEdge_reading, State.finish_reading]
    rfl
  · exact absurd (by rw [heq]; exact hsome) hany
  · exact absurd (by rw [heq]; exact hsome) hany

/-- The HighRun count when VALIDATE begins (42_classify.md R141, R142). -/
theorem State.FreshRead.n_before_validate {bs : List Bool} {t : State} (h : s.FreshRead)
    (hwhole : wholeTrace s.params.t (s.samples m) = true) (htrim : trimTrace s.params (s.samples m) ≠ [])
    (hbs : bs = classifiedBits s.params (highRuns (trimTrace s.params (s.samples m))))
    (hreset : s.NoReset (m + 1 + bs.length)) (hrun : runEdges (m + 1 + bs.length) s = .next t) :
    t.n = min (highRuns (trimTrace s.params (s.samples m))).length s.params.nmax := by
  obtain ⟨v, u, hrunu, hrst, hst, hstep, hrec⟩ := h.runEdges_segment (hreset.mono (Nat.le_add_right _ _)) hwhole
  obtain ⟨hparams, -⟩ := runEdges_modelFields hrunu
  have hbits := hrec.entryBits
  rw [hparams, ← hbs] at hbits
  have hstart := State.classified_of_step_segment hrst hst hstep (hrec.anyRun.2 htrim) hbits
  have hrunt : runEdges bs.length u = .next t := (runEdges_add hrunu _).symm.trans hrun
  have hn := State.n_of_runEdges_classify hstart (hreset.of_runEdges hrunu) (Nat.le_refl _) hrunt
  rw [hn, hrec.n, hparams]

/-- A read whose trimmed trace is not empty ends at VALIDATE's edge, after SEGMENT and the edges of CLASSIFY. -/
theorem State.FreshRead.reading_validated {bs : List Bool} (h : s.FreshRead)
    (hwhole : wholeTrace s.params.t (s.samples m) = true) (htrim : trimTrace s.params (s.samples m) ≠ [])
    (hbs : bs = classifiedBits s.params (highRuns (trimTrace s.params (s.samples m))))
    (hreset : s.NoReset (m + 1 + bs.length + 1)) :
    ∃ t, runEdges (m + 1 + bs.length + 1) s = .next t ∧
      t.reading = some (validateBits s.params (highRuns (trimTrace s.params (s.samples m))).length bs) := by
  have hreset' := hreset.mono (Nat.le_succ _)
  obtain ⟨v, hrun, hst, hfirst, hdata, hzero⟩ :=
    contentsAfterClassification s m bs.length bs h hwhole htrim hbs rfl hreset'
  obtain ⟨hparams, -⟩ := runEdges_modelFields hrun
  have hlen : bs.length ≤ 41 := by simp [hbs, classifiedBits]
  have hn : v.n = 41 ↔ (highRuns (trimTrace s.params (s.samples m))).length = 41 := by
    have hnmax := Params.legal_nmax h.legal
    rw [h.n_before_validate hwhole htrim hbs hreset' hrun]
    omega
  have hrst := hreset.pins_rst_of_runEdges hrun (Nat.lt_succ_self _)
  have hstep : step v = .next (v.finish v.validateCode).nextEdge := step_eq_validate hrst hst
  refine ⟨_, (runEdges_add hrun 1).trans (runEdges_succ_of_step hstep 0), ?_⟩
  rw [State.nextEdge_reading, State.validate_reading hn hfirst (eq_shiftAll_tail hlen hdata hzero), hparams]

end reading

/-- Settles O53: a read ends at SEGMENT's edge where its trimmed trace is empty (`State.FreshRead.reading_noData`), else at
VALIDATE's (`State.FreshRead.reading_validated`). -/
theorem readingIsThatOfTheSamples : Obligations.ReadingIsThatOfTheSamples := by
  rintro s m k hfresh hwhole rfl hreset
  by_cases htrim : trimTrace s.params (s.samples m) = []
  · rw [if_pos htrim] at hreset ⊢
    rw [readTrace, if_pos htrim]
    exact hfresh.reading_noData hwhole htrim hreset
  · have hedges : m + 2 + min (highRuns (trimTrace s.params (s.samples m))).length 41 =
        m + 1 + (classifiedBits s.params (highRuns (trimTrace s.params (s.samples m)))).length + 1 := by
      rw [classifiedBits, List.length_map, List.length_take]
      omega
    rw [if_neg htrim, hedges] at hreset ⊢
    rw [readTrace, if_neg htrim]
    exact hfresh.reading_validated hwhole htrim rfl hreset

end Sys2Proof.Machine

/-! SUPPORT. Reset and hazards (70_reset_and_hazards.md R210, R216, R231): the outputs after a reset edge, the step of an
edge whose line changes, and the edges of a read counted from its START. -/

namespace Sys2Proof.Machine

/-! ## The reset edge and the changing line -/

/-- Settles O13: the edge's operation is RESET (`step_eq_reset`), which writes every register the pins show. -/
theorem outputsAfterReset : Obligations.OutputsAfterReset := by
  intro s hrst
  have hstep : step s = .next { s.clearRead with st := .idle }.nextEdge := step_eq_reset hrst
  exact ⟨_, hstep, rfl, rfl, rfl⟩

/-- A step depends on the presented edge through the sampled pins alone. -/
theorem step_withEdge_of_pins_eq {s : State} {e e' : Edge} (h : (s.withEdge e).pins = (s.withEdge e').pins) :
    step (s.withEdge e) = step (s.withEdge e') := by
  have hop : (s.withEdge e).op = (s.withEdge e').op := by
    simp only [State.op, State.selE, h]
    rfl
  exact step_withEdge s e e' hop (.inl (congrArg Pins.line h))

/-- Settles O9: the sample of a changing line is a free value, so the pins are those of a low or of a high line
(`step_withEdge_of_pins_eq`). -/
theorem changingLineIsEitherLevel : Obligations.ChangingLineIsEitherLevel := by
  intro s e
  cases hfree : Config.freeSample s.edge with
  | false => exact .inl (step_withEdge_of_pins_eq (by simp [State.withEdge_pins, LineLevel.sample, hfree]))
  | true => exact .inr (step_withEdge_of_pins_eq (by simp [State.withEdge_pins, LineLevel.sample, hfree]))

/-! ## The edges of a read (R231) -/

/-- START begins a read (40_control.md R102). -/
theorem State.freshRead_of_start {s u : State} (hlegal : s.params.legal = true) (hst : s.st = .idle ∨ s.st = .done)
    (hstart : s.pins.start = true) (hrst : s.pins.rst = false) (h : step s = .next u) : u.FreshRead := by
  have hstep : step s = .next { s.clearRead with st := .acquire }.nextEdge := step_eq_start hrst hst hstart
  obtain rfl : _ = u := Host.Outcome.next.inj (hstep.symm.trans h)
  exact ⟨hlegal, rfl, rfl, rfl, rfl, rfl, rfl, rfl, rfl, rfl⟩

/-- A read has at least the T + 1 samples it ends in (41_acquire.md R126). -/
theorem length_of_wholeTrace {t : Nat} {xs : List Bool} (h : wholeTrace t xs = true) : t + 1 ≤ xs.length := by
  obtain ⟨ws, b, rfl, -⟩ := wholeTrace_settles h
  simp

/-- The samples of fewer edges come first among those of more. -/
theorem State.samples_prefix (s : State) {j m : Nat} (h : j ≤ m) : s.samples j <+: s.samples m := by
  obtain ⟨k, rfl⟩ := Nat.exists_eq_add_of_le h
  rw [State.samples, State.samples, List.range_add, List.map_append]
  exact List.prefix_append ..

/-- Before its last sample a read has not stopped (41_acquire.md R121). -/
theorem State.acquireTrace_samples_eq_none {s : State} {t m j : Nat} (h : wholeTrace t (s.samples m) = true)
    (hj : j < m) : acquireTrace t (s.samples j) = none := by
  cases m with
  | zero => exact absurd hj (Nat.not_lt_zero j)
  | succ m =>
    rw [State.samples, List.range_succ, List.map_append] at h
    have hnone : acquireTrace t (s.samples m) = none := acquireTrace_eq_none_of_wholeTrace h
    obtain ⟨zs, hzs⟩ := s.samples_prefix (Nat.le_of_lt_succ hj)
    refine Option.eq_none_iff_forall_ne_some.2 fun ys hys => ?_
    rw [← hzs, acquireTrace_append hys] at hnone
    cases hnone

/-- A Reading exists in DONE alone, and shows the status register (40_control.md R107). -/
theorem State.of_reading_eq_some {s : State} {r : Reading} (h : s.reading = some r) :
    s.st = .done ∧ s.status = r.status := by
  rw [State.reading, Option.ite_none_right_eq_some] at h
  obtain ⟨hdone, heq⟩ := h
  obtain rfl : _ = r := Option.some.inj heq
  exact ⟨of_decide_eq_true hdone, rfl⟩

section read

variable {s : State} {m : Nat}

/-- A read's last edge enters DONE, with NO_DATA_ERROR exactly for an empty trimmed trace (60_exceptions.md R185). -/
theorem State.FreshRead.runEdges_done {k : Nat} (h : s.FreshRead) (hwhole : wholeTrace s.params.t (s.samples m) = true)
    (hk : k = if trimTrace s.params (s.samples m) = [] then m + 1
      else m + 2 + min (highRuns (trimTrace s.params (s.samples m))).length 41) (hreset : s.NoReset k) :
    ∃ t, runEdges k s = .next t ∧ t.st = .done ∧
      (t.status = .noDataError ↔ trimTrace s.params (s.samples m) = []) := by
  obtain ⟨t, hrun, hreading⟩ := readingIsThatOfTheSamples s m k h hwhole hk hreset
  obtain ⟨hdone, hstatus⟩ := State.of_reading_eq_some hreading
  exact ⟨t, hrun, hdone, by rw [hstatus, readTrace_status_eq_noDataError_iff]⟩

/-- A read whose trimmed trace is not empty spends an edge in CLASSIFY for each of its `k` buffered HighRuns, and is then in
VALIDATE (42_classify.md R142). -/
theorem State.FreshRead.runEdges_classify {k : Nat} (h : s.FreshRead)
    (hwhole : wholeTrace s.params.t (s.samples m) = true) (htrim : trimTrace s.params (s.samples m) ≠ [])
    (hk : k = min (highRuns (trimTrace s.params (s.samples m))).length 41) (hreset : s.NoReset (m + 1 + k)) {j : Nat}
    (hj : j ≤ k) : ∃ t, runEdges (m + 1 + j) s = .next t ∧ t.st = if j = k then .validate else .classify := by
  obtain ⟨v, u, hrunu, hrst, hst, hstep, hrec⟩ := h.runEdges_segment (hreset.mono (Nat.le_add_right _ _)) hwhole
  have hlen : (classifiedBits u.params (highRuns (trimTrace s.params (s.samples m)))).length = k := by
    rw [hk, classifiedBits, List.length_map, List.length_take, Nat.min_comm]
  have hstart := State.classified_of_step_segment hrst hst hstep (hrec.anyRun.2 htrim) hrec.entryBits
  obtain ⟨t, hrun, ht⟩ := hstart.runEdges (hlen ▸ hreset.of_runEdges hrunu) (hlen ▸ hj)
  refine ⟨t, (runEdges_add hrunu j).trans hrun, ?_⟩
  have hplace := ht.place
  rw [hlen] at hplace
  split at hplace
  · next heq => rw [if_pos heq, hplace]
  · next hne => rw [if_neg hne, hplace.1]

end read

/-- Settles O52: START leaves a fresh read, which stays in ACQUIRE while its line has not settled
(`unsettledLineStaysInAcquire`), reaches SEGMENT (`State.FreshRead.runEdges_settled`), takes its bits
(`State.FreshRead.runEdges_classify`) and ends in DONE (`State.FreshRead.runEdges_done`). -/
theorem readLatency : Obligations.ReadLatency := by
  intro s u m k hlegal hst hstart hrst hstep hwhole hk
  have hfresh := State.freshRead_of_start hlegal hst hstart hrst hstep
  refine ⟨?_, fun hreset => ⟨fun j hj => ?_, ?_⟩, fun htrim hreset => ?_, fun htrim hreset => ⟨fun j hj => ?_, ?_, ?_⟩⟩
  · simpa only [State.samples_length] using length_of_wholeTrace hwhole
  · exact unsettledLineStaysInAcquire u j hfresh (hreset.mono hj.le) (State.acquireTrace_samples_eq_none hwhole hj)
  · obtain ⟨v, _, hrun, hsettled, -⟩ := hfresh.runEdges_settled hreset hwhole
    exact ⟨v, hrun, hsettled.st⟩
  · obtain ⟨v, hrun, hdone, hstatus⟩ := hfresh.runEdges_done hwhole (if_pos htrim).symm hreset
    exact ⟨v, hrun, hdone, hstatus.2 htrim⟩
  · simpa only [if_neg hj.ne] using hfresh.runEdges_classify hwhole htrim hk (hreset.mono (by omega)) hj.le
  · simpa only [if_pos] using hfresh.runEdges_classify hwhole htrim hk (hreset.mono (by omega)) (Nat.le_refl k)
  · obtain ⟨v, hrun, hdone, hstatus⟩ := hfresh.runEdges_done hwhole (by rw [if_neg htrim]; omega) hreset
    exact ⟨v, hrun, hdone, mt hstatus.1 htrim⟩

end Sys2Proof.Machine
